-- ==== Sys2Proof/Word.lean ====
section
/-! DEFINITION. The words of HUFF-CORE: register words, bytes, tree weights and bit strings
(spec/00_scope.md R9, R12). Every value is unsigned; nothing is sign-extended (R11). -/

namespace Sys2Proof

/-- A register or command word, REG_W = CMD_W = 32 bits (R9). -/
abbrev Word := BitVec 32

/-- A symbol or packed byte, SYM_BITS = 8 (R9). -/
abbrev Byte := BitVec 8

/-- A tree-node weight, WEIGHT_W = 40 (R9, spec/41_tree_builder.md R159). -/
abbrev Weight := BitVec 40

/-- A bit string of R12, its first bit (nearest the root, or the start of the stream) first. -/
abbrev Bits := List Bool

end Sys2Proof
end

