-- ==== Sys2Proof/Config.lean ====
section
/-! DEFINITION. What one implementation of HUFF-CORE fixes (spec/00_scope.md R9), the fixed values
of the block, and the free values of the model. -/

namespace Sys2Proof

/-- The parameters spec/92_eei_decisions.md leaves OPEN. They are fixed at build time and change
neither at reset nor at run time (R304); `State.cfg` holds them, so that every statement holds for
every machine (assumption log 1). BUS_NARROW_ACCESS has no value here: the accesses it would govern
are refused (R72). -/
structure Params where
  /-- SYM_CAP, the capacity of the symbol buffer in symbols (R9). -/
  symCap : Nat
  /-- OUT_DEPTH, the depth of the hardware output FIFO, read by the busy rule R78 alone (R9). -/
  outDepth : Nat
  /-- HUFF_BASE, the address of the register window (R9, R90). -/
  base : Nat
  /-- WINDOW_ORDERED, the window is mapped strongly ordered and uncached (R86). -/
  windowOrdered : Bool
  deriving DecidableEq, Repr

/-- The ranges of R9, R86 and R90: 1 ≤ SYM_CAP ≤ 2^24, OUT_DEPTH ≥ 1, HUFF_BASE a multiple of 64,
WINDOW_ORDERED true. -/
def Params.wf (p : Params) : Bool :=
  decide (1 ≤ p.symCap) && decide (p.symCap ≤ 2 ^ 24) && decide (1 ≤ p.outDepth) &&
    p.base % 64 == 0 && p.windowOrdered

/-- The parameters of `State.reset`: SYM_CAP of the spec's reference configuration (R9); OUT_DEPTH
and HUFF_BASE are DESIGN CHOICE, the spec gives none (assumption log 1, unsafe). -/
def Config.reference : Params :=
  { symCap := 65536, outDepth := 16, base := 0, windowOrdered := true }

/-- ID_VALUE (R9, R45). -/
def Config.idValue : Word := 0x48554601#32

/-! ### Free values

No body: nothing can be proved about what they are. Each is applied to `State.draws`, a counter
that every draw advances, so every draw is a fresh value. -/

/-- The draw of a register read while BUSY = 1 (R80; assumption log 2). -/
opaque Config.freeWord : Nat → Word

/-- Whether an OUT_DATA read of a non-empty OUT pops while a command is in flight (R81; assumption
log 3). -/
opaque Config.freeBool : Nat → Bool

/-- How many host accesses go before the next block step once that step is enabled: any finite
number, which is weak fairness (R79, R316; assumption log 4). -/
opaque Config.freeDelay : Nat → Nat

end Sys2Proof
end

