-- ==== Sys2Proof/Syntax.lean ====
section
/-! DEFINITION. The twelve commands of spec/30_encoding.md R102, one constructor for each row of
spec/opcode_table.json. -/

namespace Sys2Proof

/-- A command with its operands (R100, R101). The operand `a`, the captured ARG, is implicit in the
machine's state (R100). -/
inductive Instr where
  /-- do nothing (R242) -/
  | nop
  /-- back to the reset state, keeping ARG and CTRL (R243) -/
  | clr
  /-- append input symbol `s` and count it (R131) -/
  | put (s : Byte)
  /-- load the frequency of `s` from ARG (R132) -/
  | ldfreq (s : Byte)
  /-- build the tree and derive the code table (R150) -/
  | build
  /-- encode the symbol buffer (R190) -/
  | pack
  /-- take one byte `b` of a packed stream (R212) -/
  | unpk (b : Byte)
  /-- end of a packed stream (R214) -/
  | uend
  /-- read the frequency of `s` (R133) -/
  | rdfreq (s : Byte)
  /-- read the code length of `s` (R177) -/
  | rdclen (s : Byte)
  /-- read chunk `k` of the code of `s` (R178); the K field is 8 bits wide, `WellFormed` bounds it -/
  | rdcbits (s : Byte) (k : Byte)
  /-- abandon the stream and clear the error, keeping the table (R215) -/
  | drst
  deriving DecidableEq, Repr

end Sys2Proof
end

