-- ==== Sys2Proof/WellFormed.lean ====
section
/-! DEFINITION. Which terms of `Instr` are commands (spec/30_encoding.md R100, R104). -/

namespace Sys2Proof

/-- The one operand limit of the command set: RDCBITS takes a chunk index K ≤ 7 (R100, R104).
Every other operand field admits all its 256 values. -/
def Instr.wellFormed : Instr → Bool
  | .nop => true
  | .clr => true
  | .put _ => true
  | .ldfreq _ => true
  | .build => true
  | .pack => true
  | .unpk _ => true
  | .uend => true
  | .rdfreq _ => true
  | .rdclen _ => true
  | .rdcbits _ k => decide (k ≤ 7#8)
  | .drst => true

end Sys2Proof
end

