-- ==== Sys2Proof/Decode.lean ====
section
/-! DEFINITION. Command words: the fields of format F0, the legality test and the rows of
spec/30_encoding.md, the decoder (total, rejecting by name) and the encoder. -/

namespace Sys2Proof

/-! ### Fields of format F0 (R100) -/

/-- OPC, bits [7:0]. -/
def fieldOpc (w : Word) : Byte := w.extractLsb' 0 8

/-- S, bits [15:8]. -/
def fieldS (w : Word) : Byte := w.extractLsb' 8 8

/-- K, bits [23:16]. -/
def fieldK (w : Word) : Byte := w.extractLsb' 16 8

/-- RSV, bits [31:24]. -/
def fieldRsv (w : Word) : Byte := w.extractLsb' 24 8

/-- The word with the given fields (R100), RSV first because it is the most significant. -/
def packFields (rsv k s opc : Byte) : Word := rsv ++ k ++ s ++ opc

/-! ### The opcode map and the rows (R102, R103) -/

/-- OPC of each command (R102). -/
def Instr.opcode : Instr → Byte
  | .nop => 0x00#8
  | .clr => 0x01#8
  | .put _ => 0x02#8
  | .ldfreq _ => 0x03#8
  | .build => 0x04#8
  | .pack => 0x05#8
  | .unpk _ => 0x06#8
  | .uend => 0x07#8
  | .rdfreq _ => 0x08#8
  | .rdclen _ => 0x09#8
  | .rdcbits _ _ => 0x0A#8
  | .drst => 0x0B#8

/-- One row of R103: a word belongs to it when `(w &&& mask) = pattern`. -/
structure OpcodeRow where
  mask : Word
  pattern : Word
  deriving DecidableEq, Repr

/-- The rows of R103, in the table's order (NOP, CLR, PUT, LDFREQ, BUILD, PACK, UNPK, UEND, RDFREQ,
RDCLEN, RDCBITS, DRST). -/
def opcodeRows : List OpcodeRow :=
  [⟨0xFFFFFFFF#32, 0x00000000#32⟩,
   ⟨0xFFFFFFFF#32, 0x00000001#32⟩,
   ⟨0xFFFF00FF#32, 0x00000002#32⟩,
   ⟨0xFFFF00FF#32, 0x00000003#32⟩,
   ⟨0xFFFFFFFF#32, 0x00000004#32⟩,
   ⟨0xFFFFFFFF#32, 0x00000005#32⟩,
   ⟨0xFFFF00FF#32, 0x00000006#32⟩,
   ⟨0xFFFFFFFF#32, 0x00000007#32⟩,
   ⟨0xFFFF00FF#32, 0x00000008#32⟩,
   ⟨0xFFFF00FF#32, 0x00000009#32⟩,
   ⟨0xFFF800FF#32, 0x0000000A#32⟩,
   ⟨0xFFFFFFFF#32, 0x0000000B#32⟩]

/-- Whether `w` belongs to the row (R103). -/
def OpcodeRow.matches (r : OpcodeRow) (w : Word) : Bool := w &&& r.mask == r.pattern

/-! ### Legality (R104) -/

/-- `legal(w)`, clause by clause as R104 writes it. -/
def legal (w : Word) : Bool :=
  fieldRsv w == 0#8 &&
  decide (fieldOpc w ≤ 0x0B#8) &&
  (fieldS w == 0#8 || [0x02#8, 0x03#8, 0x06#8, 0x08#8, 0x09#8, 0x0A#8].contains (fieldOpc w)) &&
  (fieldK w == 0#8 || fieldOpc w == 0x0A#8) &&
  (fieldOpc w != 0x0A#8 || decide (fieldK w ≤ 7#8))

/-! ### The decoder -/

/-- Why a word is no command: the four causes of R105. A word with several causes is named by the
first of them in the order of `decode`; the block raises the same ILLEGAL_COMMAND for all
(assumption log 16). -/
inductive IllegalWord where
  /-- RSV ≠ 0 -/
  | reservedNotZero
  /-- opcodes 0x0C to 0xFF -/
  | unknownOpcode
  /-- S ≠ 0 or K ≠ 0 on a command that does not use the field -/
  | unusedFieldNotZero
  /-- K ≥ 8 on RDCBITS -/
  | chunkTooLarge
  deriving DecidableEq, Repr

/-- A command with no operand field: S and K must be 0 (R104). -/
def decodePlain (w : Word) (i : Instr) : Except IllegalWord Instr :=
  if fieldS w = 0#8 ∧ fieldK w = 0#8 then .ok i else .error .unusedFieldNotZero

/-- A command whose operand is S: K must be 0 (R104). -/
def decodeS (w : Word) (f : Byte → Instr) : Except IllegalWord Instr :=
  if fieldK w = 0#8 then .ok (f (fieldS w)) else .error .unusedFieldNotZero

/-- RDCBITS: operands S and K, K ≤ 7 (R103, R104). -/
def decodeSK (w : Word) (f : Byte → Byte → Instr) : Except IllegalWord Instr :=
  if fieldK w ≤ 7#8 then .ok (f (fieldS w) (fieldK w)) else .error .chunkTooLarge

/-- Decoding is total (R108): each of the 2^32 words is one row of R103 with its operands, or
illegal by name. -/
def decode (w : Word) : Except IllegalWord Instr :=
  if fieldRsv w = 0#8 then
    match (fieldOpc w).toNat with
    | 0x00 => decodePlain w .nop
    | 0x01 => decodePlain w .clr
    | 0x02 => decodeS w .put
    | 0x03 => decodeS w .ldfreq
    | 0x04 => decodePlain w .build
    | 0x05 => decodePlain w .pack
    | 0x06 => decodeS w .unpk
    | 0x07 => decodePlain w .uend
    | 0x08 => decodeS w .rdfreq
    | 0x09 => decodeS w .rdclen
    | 0x0A => decodeSK w .rdcbits
    | 0x0B => decodePlain w .drst
    | _ => .error .unknownOpcode
  else .error .reservedNotZero

/-- The instruction the decoder reads from an instruction of `nbits` bits whose bits are `w`,
numbered as spec/opcode_table.json numbers them; bits above `nbits` are 0. Every command is one
32-bit word (R107), written whole to CMD, so no byte order arises (spec/20_memory.md R83). -/
def decodeTableWord (nbits w : Nat) : Option Instr :=
  match decode (BitVec.ofNat 32 (w % 2 ^ nbits)) with
  | .ok i => some i
  | .error _ => none

/-! ### The encoder -/

/-- The command word of an instruction (R103, R109). -/
def encode : Instr → Word
  | .nop => packFields 0#8 0#8 0#8 0x00#8
  | .clr => packFields 0#8 0#8 0#8 0x01#8
  | .put s => packFields 0#8 0#8 s 0x02#8
  | .ldfreq s => packFields 0#8 0#8 s 0x03#8
  | .build => packFields 0#8 0#8 0#8 0x04#8
  | .pack => packFields 0#8 0#8 0#8 0x05#8
  | .unpk b => packFields 0#8 0#8 b 0x06#8
  | .uend => packFields 0#8 0#8 0#8 0x07#8
  | .rdfreq s => packFields 0#8 0#8 s 0x08#8
  | .rdclen s => packFields 0#8 0#8 s 0x09#8
  | .rdcbits s k => packFields 0#8 k s 0x0A#8
  | .drst => packFields 0#8 0#8 0#8 0x0B#8

end Sys2Proof
end

