-- ==== Sys2Proof/Machine/State.lean ====
section
/-! DEFINITION. The state of one HUFF-CORE instance (spec/10_state.md R30) with the host that drives
it, as plain data; the reasons a step can stop; the state after reset. -/

namespace Sys2Proof.Machine

/-- The state of the command sequencer (R31). -/
inductive Phase where
  /-- frequencies and symbols are being loaded; no table -/
  | fill
  /-- a table exists, no stream is being decoded -/
  | ready
  /-- a stream's header has been accepted and its end not yet given -/
  | dec
  /-- an error has been raised and not cleared -/
  | error
  deriving DecidableEq, Repr

/-- The error codes of spec/60_exceptions.md R261; codes 8 to 15 are never produced. -/
inductive ErrCode where
  | none
  | emptyInput
  | corruptedStream
  | illegalCommand
  | sequence
  | symOverflow
  | noCode
  | freqOverflow
  deriving DecidableEq, Repr

/-- The detail codes of ERRINFO (R262); `none` for every code but CORRUPTED_STREAM. -/
inductive Detail where
  | none
  | badHeader
  | noHeader
  | noData
  | candOverflow
  | leftover
  deriving DecidableEq, Repr

/-- The command accepted and not yet performed: its word, and the ARG captured when the word was
written (R40). -/
structure Pending where
  word : Word
  arg : Word
  deriving DecidableEq, Repr

/-- A table with one entry for each of the 256 symbols (R33, R35). -/
abbrev Table (α : Type) := Vector α 256

/-- The registers of the window (spec/20_memory.md R71). -/
inductive WindowReg where
  | cmd
  | arg
  | status
  | result
  | errinfo
  | ctrl
  | outData
  | symlen
  | id
  | cap
  /-- offsets 0x28 to 0x3C -/
  | reserved
  deriving DecidableEq, Repr

/-- What the host and the platform do (R91, R110): one access, one of the two polling forms, or an
edge of the reset input. Addresses are platform addresses, `bytes` the width of the access. -/
inductive HostOp where
  /-- `MemWrite(addr, bytes, v)` -/
  | write (addr : Nat) (bytes : Nat) (v : Word)
  /-- `MemRead(addr, bytes)` -/
  | read (addr : Nat) (bytes : Nat)
  /-- WAIT of R110 -/
  | wait
  /-- DRAIN of R110 -/
  | drain
  /-- the platform asserts reset (R300) -/
  | assertReset
  /-- the platform releases reset (R300) -/
  | releaseReset
  deriving DecidableEq, Repr

/-- One host read with the value it returned (R92). -/
structure HostRead where
  reg : WindowReg
  value : Word
  deriving DecidableEq, Repr

/-- One HUFF-CORE instance and its host. The spec's own elements are those of R30, in its order;
SYM_LEN is the length of `sym` and CODE_LEN[s] the length of `code`'s entry (assumption log 7), and
the entries R53 calls unspecified are left out, as R54 allows (assumption log 6). The last five
fields are the host's and the model's (assumption logs 2, 4, 5, 12, 19). -/
structure State where
  /-- the OPEN parameters (spec/00_scope.md R9); no step changes them (R304) -/
  cfg : Params
  /-- PHASE (R31) -/
  phase : Phase
  /-- TV, table valid (R32) -/
  tv : Bool
  /-- FREQ[0..255] (R33) -/
  freq : Table Word
  /-- SYM[0..SYM_LEN−1] in the order PUT appended (R34) -/
  sym : List Byte
  /-- CODE[0..255]; the empty string is "no code" (R35) -/
  code : Table Bits
  /-- MAXLEN (R36) -/
  maxLen : BitVec 8
  /-- DPAD, the padding count of the stream's header (R38) -/
  dpad : BitVec 4
  /-- DHELD_V, `dheld` holds a byte not yet consumed (R38) -/
  dheldV : Bool
  /-- DHELD (R38) -/
  dheld : Byte
  /-- CAND, the candidate bit string (R38) -/
  cand : Bits
  /-- DCOUNT, symbols decoded in the stream modulo 2^32 (R38) -/
  dcount : Word
  /-- OUT, head first (R39) -/
  out : List Byte
  /-- PENDING (R40) -/
  pending : Option Pending
  /-- TAIL (R40, R78) -/
  tail : Bool
  /-- ARG (R41) -/
  arg : Word
  /-- RESULT (R42) -/
  result : Word
  /-- ERR (R43) -/
  err : ErrCode
  /-- ERRINFO (R43, R47) -/
  errInfo : Word
  /-- CTRL[1:0] (R44) -/
  ctrl : BitVec 2
  /-- the reset input is asserted (R300) -/
  resetLine : Bool
  /-- what the host and the platform still do, in program order (R86) -/
  host : List HostOp
  /-- the reads made so far, oldest first (R92) -/
  reads : List HostRead
  /-- host accesses that still go before the enabled block step (R79) -/
  delay : Nat
  /-- free values drawn so far -/
  draws : Nat
  deriving DecidableEq, Repr

/-- How a command goes on after one of its parts: it continues, or it has raised an error and no
later part of it takes effect (spec/00_scope.md R13). -/
inductive Flow where
  | goes (s : State)
  | raised (s : State)
  deriving DecidableEq, Repr

/-- The one stuck state of the spec. -/
inductive Fault where
  /-- raised by `hostTurn`: a CMD write waits on BUSY, no block step is enabled and no reset
  follows, so the wait never ends and the run hangs (R92, R306; spec/93_implementation_defined.md
  item 16). Safe: the spec gives the run no further step. -/
  | hostWaitsForever
  deriving DecidableEq, Repr

/-- Host actions the spec gives no meaning, by name (R72, R91, R311). No command is refused. -/
inductive Refusal where
  /-- raised by an arm of `exec` for an instruction with no meaning yet; no arm does. Safe. -/
  | notModelled (mnemonic : String)
  /-- raised by `hostTurn`: an access not 32 bits wide, or at an offset that is not a multiple of 4
  (R72, parameter BUS_NARROW_ACCESS). Safe. -/
  | notWholeWord
  /-- raised by `hostTurn`: an access outside the window, a host action with no move (R90, R91).
  Safe. -/
  | outsideWindow
  /-- raised by `hostTurn`: an access through a mapping that is not strongly ordered (R86, R311
  item 3). Safe. -/
  | windowNotOrdered
  /-- raised by `hostTurn`: an access while reset is asserted (R300, R311 item 2). Safe. -/
  | accessDuringReset
  deriving DecidableEq, Repr

/-- The machine right after reset with the given parameters: the "after reset" column of
spec/10_state.md R53, with a host that does nothing yet. -/
def State.resetWith (p : Params) : State where
  cfg := p
  phase := .fill
  tv := false
  freq := Vector.replicate 256 0#32
  sym := []
  code := Vector.replicate 256 []
  maxLen := 0#8
  dpad := 0#4
  dheldV := false
  dheld := 0#8
  cand := []
  dcount := 0#32
  out := []
  pending := none
  tail := false
  arg := 0#32
  result := 0#32
  err := .none
  errInfo := 0#32
  ctrl := 0#2
  resetLine := false
  host := []
  reads := []
  delay := 0
  draws := 0

/-- The machine right after reset (R53, R300), with the parameters of assumption log 1. -/
def State.reset : State := State.resetWith Config.reference

end Sys2Proof.Machine
end

