-- ==== Sys2Proof/Machine/Operands.lean ====
section
/-! DEFINITION. Reading operands and tables: the captured ARG, the 256-entry tables, and the
conversions between bytes, words and bit strings of spec/00_scope.md R12. -/

namespace Sys2Proof.Machine

/-! ### Tables indexed by a symbol -/

/-- The entry of symbol `s`. -/
def tableGet {α : Type} (t : Table α) (s : Byte) : α := t[s.toNat]'s.isLt

/-- The table with the entry of symbol `s` replaced. -/
def tableSet {α : Type} (t : Table α) (s : Byte) (a : α) : Table α := t.set s.toNat a s.isLt

/-- The table whose every entry is `a`. -/
def tableOf {α : Type} (a : α) : Table α := Vector.replicate 256 a

/-- The symbols 0x00 to 0xFF in ascending order (R9). -/
def allSymbols : List Byte := (List.range 256).map (BitVec.ofNat 8)

/-- The symbols with their entries, in ascending symbol order. -/
def tableEntries {α : Type} (t : Table α) : List (Byte × α) := allSymbols.zip t.toList

/-! ### Views of the state -/

/-- SYM_LEN (R34): the number of valid entries of SYM. -/
def State.symLen (s : State) : Nat := s.sym.length

/-- CODE_LEN[x] (R35): the length of the code of `x`, 0 when it has none. -/
def State.codeLen (s : State) (x : Byte) : Nat := (tableGet s.code x).length

/-- The operand `a` (R100, R101): the ARG captured at the CMD write of the command being performed.
With no command pending, which no step leads to, it is ARG itself (assumption log 9). -/
def State.operandA (s : State) : Word :=
  match s.pending with
  | some p => p.arg
  | none => s.arg

/-! ### Bit strings (R12) -/

/-- The number a bit string spells, its first bit the most significant. -/
def bitsToNat (g : Bits) : Nat := g.foldl (fun n t => 2 * n + t.toNat) 0

/-- `bits8(b)`: the bits of a byte, most significant first (R12, R82). -/
def bits8 (b : Byte) : Bits := (List.range 8).map fun j => b.getLsbD (7 - j)

/-- `byte(g)`: the byte whose bit 7−j is `g[j]` (R12, R82). -/
def byteOf (g : Bits) : Byte := BitVec.ofNat 8 (bitsToNat g)

/-- The first `n` consecutive 8-bit groups of a bit string (R82). -/
def groups8 : Nat → Bits → List Bits
  | 0, _ => []
  | n + 1, g => g.take 8 :: groups8 n (g.drop 8)

/-- Chunk `k` of a code as RDCBITS returns it: bit 31−j is code bit 32k+j, and 0 beyond the code's
length (R178). -/
def codeChunk (c : Bits) (k : Nat) : Word :=
  BitVec.ofNat 32 (bitsToNat ((List.range 32).map fun j => c.getD (32 * k + j) false))

end Sys2Proof.Machine
end

