-- ==== Sys2Proof/Machine/Flags.lean ====
section
/-! DEFINITION. What the block shows besides its stored registers: BUSY, STATUS, ERRINFO's layout
and the interrupt line. -/

namespace Sys2Proof.Machine

/-- PHASE as STATUS[2:0] (R31, R46). -/
def Phase.bits : Phase → BitVec 3
  | .fill => 0#3
  | .ready => 1#3
  | .dec => 2#3
  | .error => 3#3

/-- ERR as STATUS[7:4] (R261). -/
def ErrCode.bits : ErrCode → BitVec 4
  | .none => 0#4
  | .emptyInput => 1#4
  | .corruptedStream => 2#4
  | .illegalCommand => 3#4
  | .sequence => 4#4
  | .symOverflow => 5#4
  | .noCode => 6#4
  | .freqOverflow => 7#4

/-- EDETAIL as ERRINFO[15:8] (R262). -/
def Detail.bits : Detail → Byte
  | .none => 0#8
  | .badHeader => 1#8
  | .noHeader => 2#8
  | .noData => 3#8
  | .candOverflow => 4#8
  | .leftover => 5#8

/-- A command is in flight: written and not yet settled (R81). -/
def State.inFlight (s : State) : Bool := s.pending.isSome || s.tail

/-- BUSY (R78). -/
def State.busy (s : State) : Bool := s.inFlight || decide (s.cfg.outDepth < s.out.length)

/-- OUTNE (R46). -/
def State.outNe (s : State) : Bool := !s.out.isEmpty

/-- STATUS, field by field from bit 31 down to bit 0: BUSY, nine reserved bits, OUTNE, DHELD_V,
DPAD, MAXLEN, ERR, TV, PHASE (R46). -/
def State.statusWord (s : State) : Word :=
  BitVec.ofBool s.busy ++ 0#9 ++ BitVec.ofBool s.outNe ++ BitVec.ofBool s.dheldV ++ s.dpad ++
    s.maxLen ++ s.err.bits ++ BitVec.ofBool s.tv ++ s.phase.bits

/-- ERRINFO from its fields: reserved, ESYM, EDETAIL, EOPC (R47, R270). -/
def errInfoWord (opc : Byte) (d : Detail) (esym : Byte) : Word := 0#8 ++ esym ++ d.bits ++ opc

/-- CTRL.IE_ERR (R44). -/
def State.ieErr (s : State) : Bool := s.ctrl.getLsbD 0

/-- CTRL.IE_IDLE (R44). -/
def State.ieIdle (s : State) : Bool := s.ctrl.getLsbD 1

/-- The interrupt line (R280). -/
def State.irq (s : State) : Bool :=
  (s.ieErr && s.phase == .error) || (s.ieIdle && !s.busy)

end Sys2Proof.Machine
end

