-- ==== Sys2Proof/Machine/Ops.lean ====
section
/-! DEFINITION. The shared operations: raising an error (HUFF-CORE's exception entry), the phase gate
of dispatch, the queue, the decoder's registers, the matcher, and the exits from ERROR. -/

namespace Sys2Proof.Machine

/-! ### Taking an error (R270) -/

/-- `raise X(detail, sym)` by a command with opcode `opc`: PHASE, ERR and ERRINFO are written and
nothing else, RESULT included. The block saves no return point (R270). -/
def raise (opc : Byte) (e : ErrCode) (d : Detail) (esym : Byte) (s : State) : State :=
  { s with phase := .error, err := e, errInfo := errInfoWord opc d esym }

/-! ### Dispatch (R240, R241) -/

/-- The phases table of R241 for the phases FILL, READY and DEC. -/
def actsIn : Instr → Phase → Bool
  | .nop, p => p != .error
  | .clr, p => p != .error
  | .put _, p => p == .fill
  | .ldfreq _, p => p == .fill
  | .build, p => p == .fill
  | .pack, p => p == .ready
  | .unpk _, p => p == .ready || p == .dec
  | .uend, p => p == .ready || p == .dec
  | .rdfreq _, p => p != .error
  | .rdclen _, p => p == .ready || p == .dec
  | .rdcbits _ _, p => p == .ready || p == .dec
  | .drst, p => p == .ready || p == .dec

/-- The ERROR column of R241: CLR acts, DRST acts when TV = 1, everything else is ignored
(R272). -/
def actsInError : Instr → State → Bool
  | .clr, _ => true
  | .drst, s => s.tv
  | _, _ => false

/-- `dispatch` for a legal command (R240): ERROR first, then the phase check, then the command's
rule. -/
def gated (i : Instr) (rule : State → State) (s : State) : State :=
  if s.phase = .error then
    if actsInError i s then rule s else s
  else if actsIn i s.phase then rule s
  else raise i.opcode .sequence .none 0#8 s

/-- `dispatch` for a word that is no command (R105, R240): ignored in ERROR, otherwise
ILLEGAL_COMMAND with EOPC = w[7:0] (R265). -/
def illegalWord (opc : Byte) (s : State) : State :=
  if s.phase = .error then s else raise opc .illegalCommand .none 0#8 s

/-! ### The output queue and the decoder's registers -/

/-- `push_out(b)`: append to the tail of OUT (R13, R39). -/
def pushOut (b : Byte) (s : State) : State := { s with out := s.out ++ [b] }

/-- DPAD, DHELD_V, DHELD, CAND and DCOUNT cleared (R38). -/
def clearDecoder (s : State) : State :=
  { s with dpad := 0#4, dheldV := false, dheld := 0#8, cand := [], dcount := 0#32 }

/-- The return from an error that keeps the table: what DRST does when it acts (R215, R275). -/
def leaveToReady (s : State) : State :=
  { clearDecoder s with out := [], err := .none, errInfo := 0#32, phase := .ready }

/-- The return from an error that clears the block: what CLR does (R243, R274). ARG, CTRL and
everything of the host stay. -/
def leaveToFill (s : State) : State :=
  { clearDecoder s with
    freq := tableOf 0#32, code := tableOf [], sym := [], maxLen := 0#8, tv := false, out := [],
    result := 0#32, err := .none, errInfo := 0#32, phase := .fill }

/-! ### The matcher (R176, R211) -/

/-- `REV(c)` (R176): the symbol whose code is `c`. At most one is, by R174; in a state with several,
which no run reaches, it is the smallest (assumption log 8). -/
def rev (t : Table Bits) (c : Bits) : Option Byte :=
  ((tableEntries t).find? fun e => !e.2.isEmpty && e.2 == c).map (·.1)

/-- `feed(t)` of R211 inside a command with opcode `opc`. -/
def feed (opc : Byte) (t : Bool) (s : State) : Flow :=
  let c := s.cand ++ [t]
  match rev s.code c with
  | some x => .goes { pushOut x s with dcount := s.dcount + 1#32, cand := [] }
  | none =>
    if c.length = s.maxLen.toNat then
      .raised (raise opc .corruptedStream .candOverflow 0#8 { s with cand := c })
    else .goes { s with cand := c }

/-- The bits of a string fed in order; a raise stops the rest (R13, R212, R214). -/
def feedAll (opc : Byte) : Bits → State → Flow
  | [], s => .goes s
  | t :: ts, s =>
    match feed opc t s with
    | .goes s' => feedAll opc ts s'
    | .raised s' => .raised s'

/-- The rest of a command after a part of it: run when the part goes on, dropped when it has
raised (R13). -/
def Flow.andThen : Flow → (State → State) → State
  | .goes s, f => f s
  | .raised s, _ => s

end Sys2Proof.Machine
end

