-- ==== Sys2Proof/Machine/Tree.lean ====
section
/-! DEFINITION. The code tree and the code table as functions of the frequencies
(spec/41_tree_builder.md R151 to R157, spec/42_code_table.md R170 to R173). The tree and the queue
are values local to BUILD, as R37 allows. -/

namespace Sys2Proof.Machine

/-- A node of the code tree with its weight and its sequence number (R151, R153). -/
inductive TreeNode where
  | leaf (sym : Byte) (weight : Weight) (seq : Nat)
  | internal (weight : Weight) (seq : Nat) (left right : TreeNode)
  deriving DecidableEq, Repr

/-- The weight of a node. -/
def TreeNode.weight : TreeNode → Weight
  | .leaf _ w _ => w
  | .internal w _ _ _ => w

/-- The sequence number of a node. -/
def TreeNode.seq : TreeNode → Nat
  | .leaf _ _ n => n
  | .internal _ n _ _ => n

/-- The priority order (R152): smaller weight first, ties by the smaller sequence number. -/
def TreeNode.before (x y : TreeNode) : Bool :=
  decide (x.weight < y.weight) || (x.weight == y.weight && decide (x.seq < y.seq))

/-- `insert(Q, z)`: the queue is held as the list of its nodes in the order of R152, so that
`extract_min` takes the head. -/
def queueInsert (z : TreeNode) : List TreeNode → List TreeNode
  | [] => [z]
  | x :: q => if z.before x then z :: x :: q else x :: queueInsert z q

/-- `L` of R150: the symbols with a non-zero count, ascending, with their counts. -/
def countedSymbols (freq : Table Word) : List (Byte × Word) :=
  (tableEntries freq).filter fun e => e.2 != 0#32

/-- The leaves, numbered in ascending symbol order, with weights zext_40(FREQ) (R151). -/
def leafNodes (l : List (Byte × Word)) : List TreeNode :=
  l.zipIdx.map fun e => .leaf e.1.1 (e.1.2.setWidth 40) e.2

/-- The queue after every leaf is inserted, in the order of the leaves (R151). -/
def leafQueue (l : List (Byte × Word)) : List TreeNode :=
  (leafNodes l).foldl (fun q z => queueInsert z q) []

/-- One merge (R153, R154): the first node extracted is the left child. -/
def mergeNodes (seq : Nat) (x y : TreeNode) : TreeNode :=
  .internal (x.weight + y.weight) seq x y

/-- The merge loop (R153), at most `fuel` passes; the loop needs one pass less than the queue has
nodes (R155). -/
def mergeLoop : Nat → Nat → List TreeNode → List TreeNode
  | 0, _, q => q
  | fuel + 1, seq, x :: y :: q => mergeLoop fuel (seq + 1) (queueInsert (mergeNodes seq x y) q)
  | _ + 1, _, q => q

/-- `build_tree(L)` (R151 to R155): the single node left in the queue, none for an empty `L`. -/
def buildTree (l : List (Byte × Word)) : Option TreeNode :=
  (mergeLoop l.length l.length (leafQueue l)).head?

/-- `derive(node, p)` (R170): "0" descending left, "1" descending right, the code recorded at the
leaf. -/
def deriveCodes : TreeNode → Bits → Table Bits → Table Bits
  | .leaf x _ _, p, t => tableSet t x p
  | .internal _ _ l r, p, t => deriveCodes r (p ++ [true]) (deriveCodes l (p ++ [false]) t)

/-- CODE after BUILD, from FREQ alone (R150, R160): every entry empty, then the single symbol's "0"
(R156) or the tree's codes. -/
def codeTable (freq : Table Word) : Table Bits :=
  match countedSymbols freq with
  | [] => tableOf []
  | [e] => tableSet (tableOf []) e.1 [false]
  | l =>
    match buildTree l with
    | some root => deriveCodes root [] (tableOf [])
    | none => tableOf []

/-- The largest CODE_LEN (R173). -/
def maxCodeLen (t : Table Bits) : Nat := t.toList.foldl (fun m c => max m c.length) 0

end Sys2Proof.Machine
end

