-- ==== Sys2Proof/Machine/Builder.lean ====
section
/-! DEFINITION. BUILD and the reads of the code table, RDCLEN and RDCBITS
(spec/41_tree_builder.md, spec/42_code_table.md). -/

namespace Sys2Proof.Machine

/-- The rule of BUILD (R150). -/
def buildRule (s : State) : State :=
  if countedSymbols s.freq = [] then
    raise Instr.build.opcode .emptyInput .none 0#8 s
  else
    { s with
      code := codeTable s.freq
      maxLen := BitVec.ofNat 8 (maxCodeLen (codeTable s.freq))
      tv := true
      phase := .ready
      result := BitVec.ofNat 32 (countedSymbols s.freq).length }

/-- BUILD (R150). -/
def execBuild (s : State) : Host.Outcome State Fault Refusal := .next (gated .build buildRule s)

/-- The rule of RDCLEN (R177). -/
def rdclenRule (x : Byte) (s : State) : State :=
  { s with result := BitVec.ofNat 32 (s.codeLen x) }

/-- RDCLEN x (R177). -/
def execRdclen (x : Byte) (s : State) : Host.Outcome State Fault Refusal :=
  .next (gated (.rdclen x) (rdclenRule x) s)

/-- The rule of RDCBITS (R178). -/
def rdcbitsRule (x k : Byte) (s : State) : State :=
  { s with result := codeChunk (tableGet s.code x) k.toNat }

/-- RDCBITS x, k (R178). A chunk index above 7 is no command: ILLEGAL_COMMAND, before the phase is
checked (R178, R240); the decoder never makes one (assumption log 16). -/
def execRdcbits (x k : Byte) (s : State) : Host.Outcome State Fault Refusal :=
  .next (if k ≤ 7#8 then gated (.rdcbits x k) (rdcbitsRule x k) s
    else illegalWord (Instr.rdcbits x k).opcode s)

end Sys2Proof.Machine
end

