-- ==== Sys2Proof/Machine/Control.lean ====
section
/-! DEFINITION. The sequencer's commands NOP and CLR (spec/45_control.md). -/

namespace Sys2Proof.Machine

/-- NOP (R242): no effect. -/
def execNop (s : State) : Host.Outcome State Fault Refusal := .next (gated .nop id s)

/-- CLR (R243): the reset state, keeping ARG and CTRL, in all four phases. -/
def execClr (s : State) : Host.Outcome State Fault Refusal := .next (gated .clr leaveToFill s)

end Sys2Proof.Machine
end

