-- ==== Sys2Proof/Machine/Counter.lean ====
section
/-! DEFINITION. The frequency counter's commands PUT, LDFREQ and RDFREQ
(spec/40_frequency_counter.md). -/

namespace Sys2Proof.Machine

/-- The rule of PUT (R131), its checks in their order (R273). -/
def putRule (x : Byte) (s : State) : State :=
  if s.symLen = s.cfg.symCap then
    raise (Instr.put x).opcode .symOverflow .none x s
  else if tableGet s.freq x = 0xFFFFFFFF#32 then
    raise (Instr.put x).opcode .freqOverflow .none x s
  else
    { s with
      sym := s.sym ++ [x]
      freq := tableSet s.freq x (tableGet s.freq x + 1#32)
      result := tableGet s.freq x + 1#32 }

/-- PUT x (R131). -/
def execPut (x : Byte) (s : State) : Host.Outcome State Fault Refusal :=
  .next (gated (.put x) (putRule x) s)

/-- The rule of LDFREQ (R132). -/
def ldfreqRule (x : Byte) (s : State) : State :=
  { s with freq := tableSet s.freq x s.operandA }

/-- LDFREQ x (R132). -/
def execLdfreq (x : Byte) (s : State) : Host.Outcome State Fault Refusal :=
  .next (gated (.ldfreq x) (ldfreqRule x) s)

/-- The rule of RDFREQ (R133). -/
def rdfreqRule (x : Byte) (s : State) : State := { s with result := tableGet s.freq x }

/-- RDFREQ x (R133). -/
def execRdfreq (x : Byte) (s : State) : Host.Outcome State Fault Refusal :=
  .next (gated (.rdfreq x) (rdfreqRule x) s)

end Sys2Proof.Machine
end

