-- ==== Sys2Proof/Machine/Packer.lean ====
section
/-! DEFINITION. The bit packer's command PACK (spec/43_bit_packer.md). -/

namespace Sys2Proof.Machine

/-- E, the encoded text: the codes of the buffered symbols in input order (R191). -/
def encodedText (s : State) : Bits := s.sym.flatMap fun x => tableGet s.code x

/-- pad = 8 − (|E| mod 8), from 1 to 8 (R192; spec/90_conflicts.md C2). -/
def padCount (e : Bits) : Nat := 8 - e.length % 8

/-- The data bytes of E: E and its padding zeros in 8-bit groups (R193). -/
def dataBytes (e : Bits) : List Byte :=
  let b := e ++ List.replicate (padCount e) false
  (groups8 (b.length / 8) b).map byteOf

/-- The packed stream of E: the header byte, then the data bytes (R193). -/
def packedStream (e : Bits) : List Byte := BitVec.ofNat 8 (padCount e) :: dataBytes e

/-- The rule of PACK (R190): both checks come before the first byte is appended (R195). -/
def packRule (s : State) : State :=
  if s.sym = [] then
    raise Instr.pack.opcode .emptyInput .none 0#8 s
  else
    match s.sym.find? fun x => s.codeLen x == 0 with
    | some x => raise Instr.pack.opcode .noCode .none x s
    | none =>
      { s with
        out := s.out ++ packedStream (encodedText s)
        result := BitVec.ofNat 32 (encodedText s).length }

/-- PACK (R190). -/
def execPack (s : State) : Host.Outcome State Fault Refusal := .next (gated .pack packRule s)

end Sys2Proof.Machine
end

