-- ==== Sys2Proof/Machine/Unpacker.lean ====
section
/-! DEFINITION. The bit unpacker and decoder: UNPK, UEND and DRST (spec/44_bit_unpacker.md). -/

namespace Sys2Proof.Machine

/-- UNPK in READY: the byte is the header (R212, R213). -/
def unpkHeader (b : Byte) (s : State) : State :=
  if 1#8 ≤ b ∧ b ≤ 8#8 then
    { s with
      dpad := b.setWidth 4, dheldV := false, dheld := 0#8, cand := [], dcount := 0#32,
      phase := .dec }
  else raise (Instr.unpk b).opcode .corruptedStream .badHeader 0#8 s

/-- UNPK in DEC: the byte held before is fed, then this one is held (R212). -/
def unpkData (b : Byte) (s : State) : State :=
  (if s.dheldV then feedAll (Instr.unpk b).opcode (bits8 s.dheld) s else .goes s).andThen
    fun s' => { s' with dheld := b, dheldV := true }

/-- The rule of UNPK (R212). -/
def unpkRule (b : Byte) (s : State) : State :=
  if s.phase = .ready then unpkHeader b s else unpkData b s

/-- UNPK b (R212). -/
def execUnpk (b : Byte) (s : State) : Host.Outcome State Fault Refusal :=
  .next (gated (.unpk b) (unpkRule b) s)

/-- The end of UEND once the last bits are fed: the leftover check, then RESULT and the clear
decoder (R214). -/
def uendFinish (s : State) : State :=
  if s.cand ≠ [] then raise Instr.uend.opcode .corruptedStream .leftover 0#8 s
  else { clearDecoder s with result := s.dcount, phase := .ready }

/-- The rule of UEND (R214), its checks in their order (R273). -/
def uendRule (s : State) : State :=
  if s.phase = .ready then
    raise Instr.uend.opcode .corruptedStream .noHeader 0#8 s
  else if s.dheldV = false then
    raise Instr.uend.opcode .corruptedStream .noData 0#8 s
  else
    (feedAll Instr.uend.opcode ((bits8 s.dheld).take (8 - s.dpad.toNat)) s).andThen uendFinish

/-- UEND (R214). -/
def execUend (s : State) : Host.Outcome State Fault Refusal := .next (gated .uend uendRule s)

/-- DRST (R215, R275): acts in READY and DEC, and in ERROR when TV = 1. -/
def execDrst (s : State) : Host.Outcome State Fault Refusal := .next (gated .drst leaveToReady s)

end Sys2Proof.Machine
end

