-- ==== Sys2Proof/Machine/Dispatch.lean ====
section
/-! DEFINITION. The meaning of each command, one arm per constructor (spec/30_encoding.md R102). -/

namespace Sys2Proof.Machine

/-- `dispatch` of spec/45_control.md R240 for a legal command. -/
def exec (i : Instr) (s : State) : Host.Outcome State Fault Refusal :=
  match i with
  | .nop => Sys2Proof.Machine.execNop s
  | .clr => Sys2Proof.Machine.execClr s
  | .put x => Sys2Proof.Machine.execPut x s
  | .ldfreq x => Sys2Proof.Machine.execLdfreq x s
  | .build => Sys2Proof.Machine.execBuild s
  | .pack => Sys2Proof.Machine.execPack s
  | .unpk b => Sys2Proof.Machine.execUnpk b s
  | .uend => Sys2Proof.Machine.execUend s
  | .rdfreq x => Sys2Proof.Machine.execRdfreq x s
  | .rdclen x => Sys2Proof.Machine.execRdclen x s
  | .rdcbits x k => Sys2Proof.Machine.execRdcbits x k s
  | .drst => Sys2Proof.Machine.execDrst s

end Sys2Proof.Machine
end

