-- ==== Sys2Proof/Machine/Window.lean ====
section
/-! DEFINITION. The register window (spec/20_memory.md): which register an access reaches, what a
read returns and changes, what a write changes. -/

namespace Sys2Proof.Machine

/-- The register at an offset of the window that is a multiple of 4 (R71). -/
def regAt (off : Nat) : WindowReg :=
  match off with
  | 0x00 => .cmd
  | 0x04 => .arg
  | 0x08 => .status
  | 0x0C => .result
  | 0x10 => .errinfo
  | 0x14 => .ctrl
  | 0x18 => .outData
  | 0x1C => .symlen
  | 0x20 => .id
  | 0x24 => .cap
  | _ => .reserved

/-- The register a host access reaches, or the name of the reason it has no meaning: the window must
be strongly ordered (R86), the address in [HUFF_BASE, HUFF_BASE + 0x40) (R90), the access 32 bits
wide at a multiple of 4 (R72). -/
def windowTarget (p : Params) (addr bytes : Nat) : Except Refusal WindowReg :=
  if p.windowOrdered = false then .error .windowNotOrdered
  else if addr < p.base ∨ p.base + 0x40 ≤ addr then .error .outsideWindow
  else if bytes ≠ 4 ∨ (addr - p.base) % 4 ≠ 0 then .error .notWholeWord
  else .ok (regAt (addr - p.base))

/-! ### Writes -/

/-- A CMD write that does not wait (R74): ARG is captured with the word. It enables the block's
perform step, so the host accesses that go before that step are drawn (assumption log 4). -/
def writeCmd (w : Word) (s : State) : State :=
  { s with
    pending := some ⟨w, s.arg⟩, delay := Config.freeDelay s.draws, draws := s.draws + 1 }

/-- The effect of a write (R71, R73 to R76); a CMD write is `writeCmd` once it no longer waits. -/
def writeReg (r : WindowReg) (v : Word) (s : State) : State :=
  match r with
  | .cmd => writeCmd v s
  | .arg => { s with arg := v }
  | .ctrl => { s with ctrl := v.setWidth 2 }
  | .status => s
  | .result => s
  | .errinfo => s
  | .outData => s
  | .symlen => s
  | .id => s
  | .cap => s
  | .reserved => s

/-! ### Reads -/

/-- One more free value is drawn. -/
def drawn (s : State) : State := { s with draws := s.draws + 1 }

/-- A read of RESULT, ERRINFO or SYMLEN: exact while BUSY = 0, a draw while BUSY = 1 (R80). -/
def readQuiet (v : Word) (s : State) : Word × State :=
  if s.busy then (Config.freeWord s.draws, drawn s) else (v, s)

/-- A read of STATUS: exact while BUSY = 0; while BUSY = 1 bit 31 is 1 and bits [30:0] are a draw
(R80). -/
def readStatus (s : State) : Word × State :=
  if s.busy then (1#1 ++ (Config.freeWord s.draws).setWidth 31, drawn s) else (s.statusWord, s)

/-- What an OUT_DATA read that pops `b` returns: VALID in bit 8 and the byte (R48). -/
def outDataWord (b : Byte) : Word := 0x100#32 ||| b.setWidth 32

/-- An OUT_DATA read (R81). -/
def readOutData (s : State) : Word × State :=
  match s.out with
  | [] => (0#32, s)
  | b :: q =>
    if s.inFlight = false then (outDataWord b, { s with out := q })
    else if Config.freeBool s.draws then (outDataWord b, { drawn s with out := q })
    else (0#32, drawn s)

/-- The value of a read and the state it leaves (R71, R73, R80, R81). -/
def readReg (r : WindowReg) (s : State) : Word × State :=
  match r with
  | .cmd => (0#32, s)
  | .arg => (s.arg, s)
  | .status => readStatus s
  | .result => readQuiet s.result s
  | .errinfo => readQuiet s.errInfo s
  | .ctrl => (s.ctrl.setWidth 32, s)
  | .outData => readOutData s
  | .symlen => readQuiet (BitVec.ofNat 32 s.symLen) s
  | .id => (Config.idValue, s)
  | .cap => (BitVec.ofNat 32 s.cfg.symCap, s)
  | .reserved => (0#32, s)

end Sys2Proof.Machine
end

