-- ==== Sys2Proof/Machine/Agents.lean ====
section
/-! DEFINITION. What each agent does in one step (spec/20_memory.md R79, spec/00_scope.md R8): the
block performs or settles, the host makes one access, the platform drives reset. -/

namespace Sys2Proof.Machine

/-! ### The block -/

/-- `dispatch(w, a)` of R240: a command by its meaning, any other word by R105. -/
def dispatchWord (w : Word) (s : State) : Host.Outcome State Fault Refusal :=
  match decode w with
  | .ok i => exec i s
  | .error _ => .next (illegalWord (fieldOpc w) s)

/-- The end of a perform step (R79): PENDING ← none, TAIL ← 1. The settle step is enabled from here,
so the host accesses that go before it are drawn (assumption log 4). -/
def finish (s : State) : State :=
  { s with
    pending := none, tail := true, delay := Config.freeDelay s.draws, draws := s.draws + 1 }

/-- The perform step (R79). -/
def perform (p : Pending) (s : State) : Host.Outcome State Fault Refusal :=
  match dispatchWord p.word s with
  | .next t => .next (finish t)
  | .fault r => .fault r
  | .refused r => .refused r

/-- The settle step (R79). -/
def settle (s : State) : State := { s with tail := false }

/-- The block's step when one is enabled, that is when a command is in flight (R79). -/
def blockTurn (s : State) : Host.Outcome State Fault Refusal :=
  match s.pending with
  | some p => perform p s
  | none => .next (settle s)

/-! ### The reset input (R300) -/

/-- Every element of the block at its value after reset (R53); the parameters, the level of the
reset input and everything of the host stay. -/
def resetBlock (s : State) : State :=
  { State.resetWith s.cfg with
    resetLine := s.resetLine, host := s.host, reads := s.reads, draws := s.draws }

/-- Reset is asserted: a pending command is lost (R300). -/
def assertReset (s : State) : State := { resetBlock s with resetLine := true }

/-- Reset is released: every element holds its value after reset (R300). -/
def releaseReset (s : State) : State := { resetBlock s with resetLine := false }

/-! ### The host -/

/-- The host's next action is a CMD write that must wait (R74). -/
def hostWaits (s : State) : Bool :=
  match s.host with
  | .write addr bytes _ :: _ =>
    match windowTarget s.cfg addr bytes with
    | .ok .cmd => s.busy
    | _ => false
  | _ => false

/-- The host has a next action and it does not wait. -/
def hostCanMove (s : State) : Bool := !s.host.isEmpty && !hostWaits s

/-- One host read: its value is noted among the reads made (R92). -/
def hostRead (addr bytes : Nat) (s : State) : Except Refusal (Word × State) :=
  match windowTarget s.cfg addr bytes with
  | .error r => .error r
  | .ok reg =>
    .ok ((readReg reg s).1,
      { (readReg reg s).2 with reads := s.reads ++ [⟨reg, (readReg reg s).1⟩] })

/-- One host action, taken off the list already. WAIT and DRAIN make one access each time and stay
on the list until R110 ends them. -/
def hostMove (op : HostOp) (s : State) : Host.Outcome State Fault Refusal :=
  match op with
  | .write addr bytes v =>
    match windowTarget s.cfg addr bytes with
    | .error r => .refused r
    | .ok reg => .next (writeReg reg v s)
  | .read addr bytes =>
    match hostRead addr bytes s with
    | .error r => .refused r
    | .ok (_, t) => .next t
  | .wait =>
    match hostRead (s.cfg.base + 0x08) 4 s with
    | .error r => .refused r
    | .ok (v, t) =>
      .next (if v.getLsbD 31 then { t with host := .read (s.cfg.base + 0x18) 4 :: .wait :: t.host }
        else t)
  | .drain =>
    match hostRead (s.cfg.base + 0x18) 4 s with
    | .error r => .refused r
    | .ok (v, t) => .next (if v = 0#32 then t else { t with host := .drain :: t.host })
  | .assertReset => .next (assertReset s)
  | .releaseReset => .next s

/-- The host's turn. With nothing left to do the machine idles (R288, assumption log 10). A CMD write
that waits when no block step is enabled is cut off by a reset that follows it, and hangs the run
otherwise (R306, assumption log 11). -/
def hostTurn (s : State) : Host.Outcome State Fault Refusal :=
  match s.host with
  | [] => .next s
  | op :: rest =>
    if hostWaits s then
      match rest with
      | .assertReset :: rest' => .next (assertReset { s with host := rest' })
      | _ => .fault .hostWaitsForever
    else hostMove op { s with host := rest, delay := s.delay - 1 }

/-- A turn while reset is asserted: the block takes no step, an access has no meaning (R300), and
only the release of reset ends it. -/
def resetTurn (s : State) : Host.Outcome State Fault Refusal :=
  match s.host with
  | [] => .next s
  | .releaseReset :: rest => .next (releaseReset { s with host := rest })
  | .assertReset :: rest => .next { s with host := rest }
  | .write _ _ _ :: _ => .refused .accessDuringReset
  | .read _ _ :: _ => .refused .accessDuringReset
  | .wait :: _ => .refused .accessDuringReset
  | .drain :: _ => .refused .accessDuringReset

/-- The block moves next: one of its steps is enabled, and the host accesses that go before it are
over, or the host has no move (assumption log 4). -/
def blockMovesNext (s : State) : Bool := s.inFlight && (s.delay == 0 || !hostCanMove s)

/-- The state in which the command word `w` has just been written to CMD and the block's perform
step comes next: ARG is captured with it, as a CMD write does (R74), and no host access goes
before. -/
def placeCommand (w : Word) (s : State) : State :=
  { s with pending := some ⟨w, s.arg⟩, delay := 0, resetLine := false }

end Sys2Proof.Machine
end

