-- ==== Sys2Proof/Machine/Step.lean ====
section
/-! DEFINITION. One step of the machine: the agent whose turn it is moves. -/

namespace Sys2Proof.Machine

/-- One step. While reset is asserted only the reset input moves (R300); otherwise the block takes
its enabled step or the host its next action (R79, R86). -/
def step (s : State) : Host.Outcome State Fault Refusal :=
  if s.resetLine then resetTurn s
  else if blockMovesNext s then blockTurn s
  else hostTurn s

/-- `s` with the command word `w` stored where the next step takes its command from, PENDING. There
is no program memory (spec/10_state.md R50); assumption log 5 says how a program comes to run. -/
def State.withFetchWord (s : State) (nbits w : Nat) : State :=
  placeCommand (BitVec.ofNat 32 (w % 2 ^ nbits)) s

end Sys2Proof.Machine
end

