-- ==== Sys2Proof/Safety.lean ====
section
/-! DEFINITION. What holds between steps (spec/10_state.md R52, with what R32 and R36 add), and the end
of a run with its observation (spec/20_memory.md R92). -/

namespace Sys2Proof.Machine

/-- R52, items 1 to 5 and the bound of item 6, with the empty CAND of R38 that makes them stable. -/
structure State.PhaseInv (s : State) : Prop where
  /-- item 1 -/
  fill : s.phase = .fill → s.tv = false ∧ s.maxLen = 0#8 ∧ s.dpad = 0#4 ∧ s.dheldV = false
  /-- R38: CAND is cleared with the rest of the decoder, so FILL holds none -/
  fillCand : s.phase = .fill → s.cand = []
  /-- item 2 -/
  table : s.phase = .ready ∨ s.phase = .dec → s.tv = true ∧ 1#8 ≤ s.maxLen
  /-- item 3 -/
  ready : s.phase = .ready → s.dpad = 0#4 ∧ s.dheldV = false ∧ s.cand = []
  /-- item 4 -/
  dec : s.phase = .dec → 1#4 ≤ s.dpad ∧ s.dpad ≤ 8#4 ∧ s.cand.length < s.maxLen.toNat
  /-- item 5 -/
  error : s.phase ≠ .error ↔ s.err = .none
  /-- item 5 -/
  errInfo : s.phase ≠ .error → s.errInfo = 0#32
  /-- item 6, its bound -/
  symLen : s.symLen ≤ s.cfg.symCap

/-- What TV says of the table (R32, R36): with TV = 1 it is the table BUILD derives from FREQ, and
MAXLEN its longest code; with TV = 0 it is empty. -/
structure State.TableInv (s : State) : Prop where
  counted : s.tv = true → countedSymbols s.freq ≠ []
  derived : s.tv = true → s.code = codeTable s.freq
  longest : s.tv = true → s.maxLen.toNat = maxCodeLen s.code
  empty : s.tv = false → s.code = tableOf [] ∧ s.maxLen = 0#8

/-- The invariant of the machine, kept by every step from every state that has it. -/
def State.Inv (s : State) : Prop := s.PhaseInv ∧ s.TableInv

/-- Item 6 of R52: FREQ counts SYM. It lapses at an LDFREQ (R132). -/
def State.CountsSym (s : State) : Prop := ∀ x : Byte, (tableGet s.freq x).toNat = s.sym.count x

/-- The end of a run (R92): the host has made its last access and BUSY = 0. -/
def State.runEnded (s : State) : Bool := s.host.isEmpty && !s.busy

/-- The bytes popped from OUT, in order (R92): the OUT_DATA reads with VALID set (R48). -/
def State.popped (s : State) : List Byte :=
  (s.reads.filter fun r => r.reg == .outData && r.value.getLsbD 8).map fun r => r.value.setWidth 8

/-- The observation of a run (R92). -/
structure Observation where
  reads : List HostRead
  popped : List Byte
  phase : Phase
  err : ErrCode
  errInfo : Word
  result : Word
  symLen : Nat
  out : List Byte
  deriving DecidableEq, Repr

/-- What a run that has ended shows (R92). -/
def State.observation (s : State) : Observation where
  reads := s.reads
  popped := s.popped
  phase := s.phase
  err := s.err
  errInfo := s.errInfo
  result := s.result
  symLen := s.symLen
  out := s.out

end Sys2Proof.Machine
end

