-- ==== Sys2Proof/Certificates/Slice0/Obligations.lean ====
section
/-! DEFINITION. The statements for the provers, from the numbered rules of spec/. OBLIGATIONS.json
lists them with the rules they formalise. -/

namespace Sys2Proof.Spec

open Sys2Proof.Machine

/-! ### Words the statements share -/

/-- ERRINFO with its fields (R47): reserved, ESYM, EDETAIL, EOPC. -/
def errInfoOf (esym detail opc : Byte) : Word := 0#8 ++ esym ++ detail ++ opc

/-- `s` after an error is raised in it: PHASE, ERR and ERRINFO written, everything else as it was
(R270). -/
def errorState (s : State) (e : ErrCode) (esym detail opc : Byte) : State :=
  { s with phase := .error, err := e, errInfo := errInfoOf esym detail opc }

/-- The symbols with a non-zero count (R151). -/
def countedOf (freq : Table Word) : List Byte :=
  allSymbols.filter fun x => tableGet freq x != 0#32

/-- The bits of a byte, most significant first (R12). -/
def msbFirst (b : Byte) : Bits :=
  [b.getLsbD 7, b.getLsbD 6, b.getLsbD 5, b.getLsbD 4, b.getLsbD 3, b.getLsbD 2, b.getLsbD 1,
    b.getLsbD 0]

/-- The concatenated codes of a symbol sequence (R191). -/
def codesOf (code : Table Bits) (l : List Byte) : Bits := l.flatMap fun x => tableGet code x

/-- REV of R176: the symbol that has the code `c`. -/
def symbolOf (code : Table Bits) (c : Bits) : Option Byte :=
  allSymbols.find? fun x => tableGet code x != [] && tableGet code x == c

/-- What the matcher makes of a bit string. -/
structure Scan where
  /-- the symbols matched, in order -/
  emitted : List Byte
  /-- the candidate left -/
  cand : Bits
  /-- the candidate reached MAXLEN bits unmatched, and the rest of the string was not read -/
  overflow : Bool

/-- The matcher of R211 as a function of the table, MAXLEN, the candidate so far and the bits. -/
def scan (code : Table Bits) (maxLen : Nat) : Bits → Bits → Scan
  | c, [] => ⟨[], c, false⟩
  | c, t :: ts =>
    match symbolOf code (c ++ [t]) with
    | some x =>
      let r := scan code maxLen [] ts
      ⟨x :: r.emitted, r.cand, r.overflow⟩
    | none =>
      if (c ++ [t]).length = maxLen then ⟨[], c ++ [t], true⟩ else scan code maxLen (c ++ [t]) ts

/-- `s` with the symbols of a scan emitted: OUT, DCOUNT and CAND (R211). -/
def scanned (s : State) (r : Scan) : State :=
  { s with
    out := s.out ++ r.emitted, dcount := s.dcount + BitVec.ofNat 32 r.emitted.length,
    cand := r.cand }

/-- Commands performed one after the other, each on the state the one before left. -/
def execAll : List Instr → State → Option State
  | [], s => some s
  | i :: is, s =>
    match exec i s with
    | .next t => execAll is t
    | _ => none

/-- The nodes' weights are the exact sums of their children's (R159). -/
def exactWeights : TreeNode → Prop
  | .leaf _ _ _ => True
  | .internal w _ l r =>
    w.toNat = l.weight.toNat + r.weight.toNat ∧ exactWeights l ∧ exactWeights r

/-- The host makes the next move, and the window is mapped as R86 requires. -/
def hostTurnIn (s : State) : Prop :=
  s.resetLine = false ∧ blockMovesNext s = false ∧ s.cfg.windowOrdered = true

/-- The block makes the next move. -/
def blockTurnIn (s : State) : Prop := s.resetLine = false ∧ blockMovesNext s = true

/-- `s` after the host action at the head of its list is over, `rest` still to come, with one
register read noted. -/
def afterRead (s : State) (rest : List HostOp) (r : WindowReg) (v : Word) : State :=
  { s with host := rest, reads := s.reads ++ [⟨r, v⟩] }

/-- `s` after a host write that changes no register is over. -/
def afterIgnored (s : State) (rest : List HostOp) : State :=
  { s with host := rest }

/-- The step leads to `t`, the model's own counters `delay` and `draws` aside (assumption logs 2, 4). -/
def stepsTo (s t : State) : Prop := ∃ d n : Nat, step s = .next { t with delay := d, draws := n }

/-- The end of a perform step (R79), with the model's own draw of the host accesses before the
settle step. -/
def performed (t : State) : State :=
  { t with
    pending := none, tail := true, delay := Config.freeDelay t.draws, draws := t.draws + 1 }

/-- RESULT after a successful command (R244). UEND's DCOUNT is the count before the command and the
symbols the command itself emits. -/
def resultAfter (i : Instr) (s t : State) : Prop :=
  match i with
  | .nop => t.result = s.result
  | .clr => t.result = 0#32
  | .put x => t.result = tableGet t.freq x
  | .ldfreq _ => t.result = s.result
  | .build => t.result = BitVec.ofNat 32 (countedOf s.freq).length
  | .pack => t.result = BitVec.ofNat 32 (codesOf s.code s.sym).length
  | .unpk _ => t.result = s.result
  | .uend => t.result = s.dcount + BitVec.ofNat 32 (t.out.length - s.out.length)
  | .rdfreq x => t.result = tableGet s.freq x
  | .rdclen x => t.result = BitVec.ofNat 32 (tableGet s.code x).length
  | .rdcbits x k =>
    ∀ j < 32, t.result.getLsbD (31 - j) = (tableGet s.code x).getD (32 * k.toNat + j) false
  | .drst => t.result = s.result

/-- The phase changes a perform step may make (R245), `c` being what the word decodes to. -/
def phaseChange (c : Except IllegalWord Instr) (s t : State) : Prop :=
  (c = .ok .clr ∧ t.phase = .fill) ∨
  (c = .ok .build ∧ s.phase = .fill ∧ t.phase = .ready) ∨
  (∃ b : Byte, c = .ok (.unpk b) ∧ s.phase = .ready ∧ 1#8 ≤ b ∧ b ≤ 8#8 ∧ t.phase = .dec) ∨
  (c = .ok .uend ∧ s.phase = .dec ∧ t.phase = .ready) ∨
  (c = .ok .drst ∧ (s.phase = .ready ∨ s.phase = .dec) ∧ t.phase = .ready) ∨
  (c = .ok .drst ∧ s.phase = .error ∧ s.tv = true ∧ t.phase = .ready) ∨
  (s.phase ≠ .error ∧ t.phase = .error)

/-- The legal commands that R241 sends to SEQUENCE in a phase. -/
def outOfPhase (i : Instr) (p : Phase) : Prop :=
  match i with
  | .nop => False
  | .clr => False
  | .put _ => p = .ready ∨ p = .dec
  | .ldfreq _ => p = .ready ∨ p = .dec
  | .build => p = .ready ∨ p = .dec
  | .pack => p = .fill ∨ p = .dec
  | .unpk _ => p = .fill
  | .uend => p = .fill
  | .rdfreq _ => False
  | .rdclen _ => p = .fill
  | .rdcbits _ _ => p = .fill
  | .drst => p = .fill

end Sys2Proof.Spec

open Sys2Proof Sys2Proof.Machine Sys2Proof.Spec

/-! ### Encoding -/

/-- R103, R108: a word decodes to a command exactly when the command is well formed and the word is
its encoding, for every operand value. -/
def Obligations.DecodeEncodeAgree : Prop :=
  ∀ (w : Word) (i : Instr), decode w = .ok i ↔ i.wellFormed = true ∧ encode i = w

/-- R104: the words that decode are the legal ones, which are those of the rows of R103, and no word
is in two rows. -/
def Obligations.LegalWordsAreTheRows : Prop :=
  ∀ w : Word,
    ((∃ i, decode w = .ok i) ↔
      w.extractLsb' 24 8 = 0#8 ∧
      w.extractLsb' 0 8 ≤ 0x0B#8 ∧
      (w.extractLsb' 8 8 = 0#8 ∨
        w.extractLsb' 0 8 ∈ [0x02#8, 0x03#8, 0x06#8, 0x08#8, 0x09#8, 0x0A#8]) ∧
      (w.extractLsb' 16 8 = 0#8 ∨ w.extractLsb' 0 8 = 0x0A#8) ∧
      (w.extractLsb' 0 8 ≠ 0x0A#8 ∨ w.extractLsb' 16 8 ≤ 7#8)) ∧
    ((∃ i, decode w = .ok i) ↔ ∃ r ∈ opcodeRows, w &&& r.mask = r.pattern) ∧
    ∀ r ∈ opcodeRows, ∀ r' ∈ opcodeRows,
      w &&& r.mask = r.pattern → w &&& r'.mask = r'.pattern → r = r'

/-- Words written out from the patterns of R103, one of each family, and illegal words of R105. -/
def Obligations.SampleCommandWords : Prop :=
  decode 0b00000000000000000000000000000000#32 = .ok .nop ∧
  decode 0b00000000000000000000000000000001#32 = .ok .clr ∧
  decode 0b00000000000000000110000100000010#32 = .ok (.put 0x61#8) ∧
  decode 0b00000000000000000110001000000011#32 = .ok (.ldfreq 0x62#8) ∧
  decode 0b00000000000000000000000000000100#32 = .ok .build ∧
  decode 0b00000000000000000000000000000101#32 = .ok .pack ∧
  decode 0b00000000000000001111111100000110#32 = .ok (.unpk 0xFF#8) ∧
  decode 0b00000000000001110110000100001010#32 = .ok (.rdcbits 0x61#8 7#8) ∧
  decode 0b00000000000000000000000000001011#32 = .ok .drst ∧
  decode 0x0008610A#32 = .error .chunkTooLarge ∧
  decode 0x00016102#32 = .error .unusedFieldNotZero ∧
  decode 0x01000000#32 = .error .reservedNotZero ∧
  decode 0x0000000C#32 = .error .unknownOpcode

/-! ### The block's steps -/

/-- R79: the step that performs a pending command is the command's meaning, then PENDING ← none and
TAIL ← 1. The draw of the delay is the model's own (assumption log 4). -/
def Obligations.StepPerformsPendingCommand : Prop :=
  ∀ (s t : State) (p : Pending) (i : Instr),
    blockTurnIn s → s.pending = some p → decode p.word = .ok i → exec i s = .next t →
      step s = .next (performed t)

/-- R265: in FILL, READY or DEC a word that is no command raises ILLEGAL_COMMAND when it is
performed, with EOPC = w[7:0]. -/
def Obligations.IllegalWordRaises : Prop :=
  ∀ (s : State) (p : Pending),
    blockTurnIn s → s.pending = some p → (∀ r ∈ opcodeRows, p.word &&& r.mask ≠ r.pattern) →
    s.phase ≠ .error →
      stepsTo s
        { errorState s .illegalCommand 0#8 0#8 (p.word.extractLsb' 0 8) with
          pending := none, tail := true }

/-- R79: with no command pending, the settle step clears TAIL and changes nothing else. -/
def Obligations.SettleClearsTail : Prop :=
  ∀ s : State, blockTurnIn s → s.pending = none → step s = .next { s with tail := false }

/-- No command stops the machine, and none changes ARG, CTRL, the parameters, PENDING, TAIL or
anything of the host (R41, R44, R304). -/
def Obligations.EveryCommandAnswersNext : Prop :=
  ∀ (i : Instr) (s : State), ∃ t, exec i s = .next t ∧
    t.arg = s.arg ∧ t.ctrl = s.ctrl ∧ t.cfg = s.cfg ∧ t.pending = s.pending ∧ t.tail = s.tail ∧
    t.resetLine = s.resetLine ∧ t.host = s.host ∧ t.reads = s.reads ∧ t.delay = s.delay ∧
    t.draws = s.draws

/-! ### Errors -/

/-- R272: in phase ERROR, CLR acts, DRST acts when TV = 1, and every other word, legal or not,
changes nothing but TAIL (and PENDING, which the perform step empties). -/
def Obligations.ErrorPhaseIgnoresTheRest : Prop :=
  ∀ (s : State) (p : Pending),
    blockTurnIn s → s.pending = some p → s.phase = .error →
      (p.word = 0x00000001#32 → ∃ t, step s = .next t ∧ t.phase = .fill ∧ t.err = .none ∧
        t.tv = false ∧ t.out = []) ∧
      (p.word = 0x0000000B#32 → s.tv = true → ∃ t, step s = .next t ∧ t.phase = .ready ∧
        t.err = .none ∧ t.code = s.code ∧ t.out = []) ∧
      (p.word ≠ 0x00000001#32 → (p.word ≠ 0x0000000B#32 ∨ s.tv = false) →
        stepsTo s { s with pending := none, tail := true })

/-- R266: a legal command in a phase where R241 gives SEQUENCE raises SEQUENCE and does nothing
else. -/
def Obligations.OutOfPhaseRaisesSequence : Prop :=
  ∀ (i : Instr) (s : State),
    i.wellFormed = true → outOfPhase i s.phase →
      exec i s = .next (errorState s .sequence 0#8 0#8 ((encode i).extractLsb' 0 8))

/-- R270: a command that raises sets PHASE = ERROR, a code, and an ERRINFO that names its opcode; it
writes no RESULT, TV, table, FREQ, SYM, ARG or CTRL, and only UNPK and UEND may have appended to OUT
and moved DCOUNT and CAND before. -/
def Obligations.RaiseKeepsEverythingElse : Prop :=
  ∀ (i : Instr) (s t : State),
    s.phase ≠ .error → exec i s = .next t → t.phase = .error →
      t.err ≠ .none ∧
      (∃ esym detail : Byte, t.errInfo = errInfoOf esym detail i.opcode) ∧
      t = { s with
        phase := .error, err := t.err, errInfo := t.errInfo, out := t.out, dcount := t.dcount,
        cand := t.cand } ∧
      (∃ l, t.out = s.out ++ l) ∧
      ((∃ b, i = .unpk b) ∨ i = .uend ∨
        (t.out = s.out ∧ t.dcount = s.dcount ∧ t.cand = s.cand))

/-- R261, R262: which command raises which code, with which EDETAIL and ESYM. -/
def Obligations.ErrorCodesAndDetails : Prop :=
  ∀ (i : Instr) (s t : State),
    i.wellFormed = true → s.phase ≠ .error → exec i s = .next t → t.phase = .error →
      (t.err = .emptyInput ∧ (i = .build ∨ i = .pack) ∧
        t.errInfo = errInfoOf 0#8 0#8 i.opcode) ∨
      (t.err = .corruptedStream ∧ (∃ b, i = .unpk b) ∧
        (t.errInfo = errInfoOf 0#8 1#8 i.opcode ∨ t.errInfo = errInfoOf 0#8 4#8 i.opcode)) ∨
      (t.err = .corruptedStream ∧ i = .uend ∧
        (t.errInfo = errInfoOf 0#8 2#8 i.opcode ∨ t.errInfo = errInfoOf 0#8 3#8 i.opcode ∨
          t.errInfo = errInfoOf 0#8 4#8 i.opcode ∨ t.errInfo = errInfoOf 0#8 5#8 i.opcode)) ∨
      (t.err = .sequence ∧ t.errInfo = errInfoOf 0#8 0#8 i.opcode) ∨
      (∃ x, (t.err = .symOverflow ∨ t.err = .freqOverflow) ∧ i = .put x ∧
        t.errInfo = errInfoOf x 0#8 i.opcode) ∨
      (∃ x ∈ s.sym, t.err = .noCode ∧ i = .pack ∧ t.errInfo = errInfoOf x 0#8 i.opcode)

/-! ### The sequencer's commands -/

/-- R242: NOP is the word 0, alone among the words with its opcode, and does nothing. -/
def Obligations.NopHasNoEffect : Prop :=
  (∀ w : Word, w.extractLsb' 0 8 = 0#8 → ((∃ i, decode w = .ok i) ↔ w = 0#32)) ∧
  decode 0#32 = .ok .nop ∧ ∀ s : State, exec .nop s = .next s

/-- R243: CLR, in every phase, is the reset state but ARG and CTRL; STATUS is then 0 once BUSY = 0;
a word with its opcode and another field set is no CLR. -/
def Obligations.ClrReturnsToFill : Prop :=
  (∀ w : Word, decode w = .ok .clr ↔ w = 0x00000001#32) ∧
  ∀ s : State, ∃ t, exec .clr s = .next t ∧
    (∀ x : Byte, tableGet t.freq x = 0#32 ∧ tableGet t.code x = []) ∧
    t = { s with
      phase := .fill, tv := false, freq := t.freq, sym := [], code := t.code, maxLen := 0#8,
      dpad := 0#4, dheldV := false, dheld := 0#8, cand := [], dcount := 0#32, out := [],
      result := 0#32, err := .none, errInfo := 0#32 } ∧
    { t with pending := none, tail := false }.statusWord = 0#32

/-! ### The frequency counter -/

/-- R131: PUT in FILL, below both limits, appends the symbol, counts it, and leaves the new count in
RESULT. -/
def Obligations.PutAppendsAndCounts : Prop :=
  ∀ (s : State) (x : Byte),
    s.phase = .fill → s.symLen ≠ s.cfg.symCap → tableGet s.freq x ≠ 0xFFFFFFFF#32 →
      ∃ t, exec (.put x) s = .next t ∧
        (∀ y, tableGet t.freq y =
          if y = x then tableGet s.freq x + 1#32 else tableGet s.freq y) ∧
        t = { s with
          freq := t.freq, sym := s.sym ++ [x], result := tableGet s.freq x + 1#32 }

/-- R267, R269: PUT with the buffer full raises SYM_OVERFLOW, checked first; with the count at
2^32 − 1 it raises FREQ_OVERFLOW; ESYM = S, and nothing is appended. -/
def Obligations.PutOverflowErrors : Prop :=
  ∀ (s : State) (x : Byte), s.phase = .fill →
    (s.symLen = s.cfg.symCap →
      exec (.put x) s = .next (errorState s .symOverflow x 0#8 0x02#8)) ∧
    (s.symLen ≠ s.cfg.symCap → tableGet s.freq x = 0xFFFFFFFF#32 →
      exec (.put x) s = .next (errorState s .freqOverflow x 0#8 0x02#8))

/-- R132: LDFREQ in FILL loads one entry with the ARG captured at its CMD write, and changes nothing
else. -/
def Obligations.LdfreqLoadsCapturedArg : Prop :=
  ∀ (s : State) (p : Pending) (x : Byte),
    s.phase = .fill → s.pending = some p →
      ∃ t, exec (.ldfreq x) s = .next t ∧
        (∀ y, tableGet t.freq y = if y = x then p.arg else tableGet s.freq y) ∧
        t = { s with freq := t.freq }

/-- R133, R177: RDFREQ outside ERROR and RDCLEN in READY and DEC write RESULT and nothing else. -/
def Obligations.ReadCommandsWriteResult : Prop :=
  ∀ (s : State) (x : Byte),
    (s.phase ≠ .error → exec (.rdfreq x) s = .next { s with result := tableGet s.freq x }) ∧
    (s.phase = .ready ∨ s.phase = .dec →
      exec (.rdclen x) s =
        .next { s with result := BitVec.ofNat 32 (tableGet s.code x).length })

/-- R134: PUTs of a sequence that fits, after CLR, leave FREQ the counts, SYM the sequence and
SYM_LEN its length. -/
def Obligations.PutsCountTheSequence : Prop :=
  ∀ (s s' : State) (l : List Byte),
    s.cfg.wf = true → exec .clr s = .next s' → l.length ≤ s.cfg.symCap →
      ∃ t, execAll (l.map .put) s' = some t ∧ t.sym = l ∧ t.symLen = l.length ∧
        ∀ x : Byte, (tableGet t.freq x).toNat = l.count x

/-! ### The tree builder and the code table -/

/-- R263: BUILD with every count zero and PACK with an empty buffer raise EMPTY_INPUT. -/
def Obligations.EmptyInputRaised : Prop :=
  ∀ s : State,
    (s.phase = .fill → (∀ x : Byte, tableGet s.freq x = 0#32) →
      exec .build s = .next (errorState s .emptyInput 0#8 0#8 0x04#8)) ∧
    (s.phase = .ready → s.sym = [] →
      exec .pack s = .next (errorState s .emptyInput 0#8 0#8 0x05#8))

/-- R172, R173: BUILD in FILL with some count non-zero codes exactly the counted symbols, sets
MAXLEN to the longest code, from 1 to 255, TV and READY, and RESULT to the number of counted symbols
(R150); nothing else changes. -/
def Obligations.BuildCodesCountedSymbols : Prop :=
  ∀ s : State, s.phase = .fill → (∃ x : Byte, tableGet s.freq x ≠ 0#32) →
    ∃ t, exec .build s = .next t ∧
      (∀ x : Byte, 1 ≤ (tableGet t.code x).length ↔ tableGet s.freq x ≠ 0#32) ∧
      (∀ x : Byte, (tableGet t.code x).length ≤ t.maxLen.toNat) ∧
      (∃ x : Byte, (tableGet t.code x).length = t.maxLen.toNat) ∧
      1 ≤ t.maxLen.toNat ∧
      t = { s with
        phase := .ready, tv := true, code := t.code, maxLen := t.maxLen,
        result := BitVec.ofNat 32 (countedOf s.freq).length }

/-- R156: with one counted symbol, BUILD gives it the code "0" and no other symbol a code. -/
def Obligations.BuildSingleSymbol : Prop :=
  ∀ (s : State) (x : Byte),
    s.phase = .fill → tableGet s.freq x ≠ 0#32 → (∀ y, y ≠ x → tableGet s.freq y = 0#32) →
      ∃ t, exec .build s = .next t ∧ t.phase = .ready ∧ t.maxLen = 1#8 ∧ t.result = 1#32 ∧
        tableGet t.code x = [false] ∧ ∀ y, y ≠ x → tableGet t.code y = []

/-- R174: after BUILD no code is a prefix of the code of another symbol. -/
def Obligations.BuildPrefixFree : Prop :=
  ∀ s : State, s.phase = .fill → (∃ x : Byte, tableGet s.freq x ≠ 0#32) →
    ∃ t, exec .build s = .next t ∧
      ∀ x y : Byte, x ≠ y → tableGet t.code x ≠ [] → tableGet t.code y ≠ [] →
        ¬ tableGet t.code x <+: tableGet t.code y

/-- R158: with n ≥ 2 counted symbols every code has from 1 to n − 1 ≤ 255 bits; with n = 1 the code
has 1 bit. -/
def Obligations.BuildDepthBound : Prop :=
  ∀ s : State, s.phase = .fill → countedOf s.freq ≠ [] →
    ∃ t, exec .build s = .next t ∧
      ∀ x ∈ countedOf s.freq,
        (2 ≤ (countedOf s.freq).length →
          1 ≤ (tableGet t.code x).length ∧
          (tableGet t.code x).length ≤ (countedOf s.freq).length - 1 ∧
          (countedOf s.freq).length - 1 ≤ 255) ∧
        ((countedOf s.freq).length = 1 → (tableGet t.code x).length = 1)

/-- R175: with n ≥ 2 counted symbols the code is complete: the Kraft sum is 1, and every bit string
is a proper prefix of a code or has a code as a prefix, not both. With n = 1 the sum is 1/2 and a
string that starts with "1" is neither. The sums are scaled by 2^255. -/
def Obligations.BuildCompleteCode : Prop :=
  ∀ s : State, s.phase = .fill → countedOf s.freq ≠ [] →
    ∃ t, exec .build s = .next t ∧
      (2 ≤ (countedOf s.freq).length →
        ((countedOf s.freq).map fun x => 2 ^ (255 - (tableGet t.code x).length)).sum = 2 ^ 255 ∧
        ∀ u : Bits,
          ((∃ x, tableGet t.code x ≠ [] ∧ u <+: tableGet t.code x ∧ u ≠ tableGet t.code x) ∨
            (∃ x, tableGet t.code x ≠ [] ∧ tableGet t.code x <+: u)) ∧
          ¬ ((∃ x, tableGet t.code x ≠ [] ∧ u <+: tableGet t.code x ∧ u ≠ tableGet t.code x) ∧
            (∃ x, tableGet t.code x ≠ [] ∧ tableGet t.code x <+: u))) ∧
      ((countedOf s.freq).length = 1 →
        ((countedOf s.freq).map fun x => 2 ^ (255 - (tableGet t.code x).length)).sum = 2 ^ 254 ∧
        ∀ u : Bits,
          ¬ (∃ x, tableGet t.code x ≠ [] ∧ true :: u <+: tableGet t.code x) ∧
          ¬ (∃ x, tableGet t.code x ≠ [] ∧ tableGet t.code x <+: true :: u))

/-- R159: the 40-bit sums of the merges never wrap: every weight is the exact sum of its children's,
and the root's is the sum of all counts. -/
def Obligations.TreeWeightsAreExact : Prop :=
  ∀ freq : Table Word, countedSymbols freq ≠ [] →
    ∃ root, buildTree (countedSymbols freq) = some root ∧ exactWeights root ∧
      root.weight.toNat = (allSymbols.map fun x => (tableGet freq x).toNat).sum

/-- R160: what BUILD leaves in CODE, MAXLEN and RESULT depends on FREQ alone: two machines in FILL
with equal FREQ, not all zero, hold equal tables after it. -/
def Obligations.BuildDependsOnFrequenciesAlone : Prop :=
  ∀ s s' : State,
    s.phase = .fill → s'.phase = .fill → s.freq = s'.freq → countedOf s.freq ≠ [] →
      ∃ t t', exec .build s = .next t ∧ exec .build s' = .next t' ∧
        t.code = t'.code ∧ t.maxLen = t'.maxLen ∧ t.result = t'.result

/-- R178: RDCBITS in READY and DEC leaves in RESULT bit 31−j the code bit 32k+j, 0 beyond the code's
end; a chunk index above 7 is ILLEGAL_COMMAND in every phase but ERROR. A term with such an index,
which the decoder never makes, has that meaning by the model's choice (assumption log 16). -/
def Obligations.RdcbitsReadsChunk : Prop :=
  ∀ (s : State) (x k : Byte),
    (k ≤ 7#8 → (s.phase = .ready ∨ s.phase = .dec) →
      ∃ r, exec (.rdcbits x k) s = .next { s with result := r } ∧
        ∀ j < 32, r.getLsbD (31 - j) = (tableGet s.code x).getD (32 * k.toNat + j) false) ∧
    (7#8 < k → s.phase ≠ .error →
      exec (.rdcbits x k) s = .next (errorState s .illegalCommand 0#8 0#8 0x0A#8))

/-! ### The packer -/

/-- R191, R192, R193: PACK in READY, with every buffered symbol coded, appends the header byte pad =
8 − (|E| mod 8) and the bytes whose bits, most significant first, are E and pad zero bits; RESULT is
|E|; nothing else changes. -/
def Obligations.PackEmitsPackedStream : Prop :=
  ∀ s : State,
    s.phase = .ready → s.sym ≠ [] → (∀ x ∈ s.sym, tableGet s.code x ≠ []) →
      ∃ bytes : List Byte,
        exec .pack s = .next
          { s with
            out := s.out ++
              BitVec.ofNat 8 (8 - (codesOf s.code s.sym).length % 8) :: bytes
            result := BitVec.ofNat 32 (codesOf s.code s.sym).length } ∧
        bytes.flatMap msbFirst =
          codesOf s.code s.sym ++
            List.replicate (8 - (codesOf s.code s.sym).length % 8) false

/-- R197, R198: a successful PACK appends ⌊|E| / 8⌋ + 2 bytes, at least 2, the first of them from 1
to 8. -/
def Obligations.PackOutputLength : Prop :=
  ∀ s : State,
    s.phase = .ready → s.sym ≠ [] → (∀ x ∈ s.sym, tableGet s.code x ≠ []) →
      ∃ t hd tl, exec .pack s = .next t ∧ t.out = s.out ++ hd :: tl ∧
        (hd :: tl).length = (codesOf s.code s.sym).length / 8 + 2 ∧ 2 ≤ (hd :: tl).length ∧
        1#8 ≤ hd ∧ hd ≤ 8#8

/-- R194: between steps of a machine in the ranges of R9, RESULT after PACK is exactly |E|. -/
def Obligations.PackResultIsExact : Prop :=
  ∀ s t : State,
    s.cfg.wf = true → s.Inv → s.phase = .ready → exec .pack s = .next t → t.phase = .ready →
      t.result.toNat = (codesOf s.code s.sym).length

/-- R268, R195: PACK with a buffered symbol that has no code raises NO_CODE with ESYM the first such
symbol, and neither OUT nor RESULT changes. -/
def Obligations.PackNoCode : Prop :=
  ∀ (s : State) (before after : List Byte) (x : Byte),
    s.phase = .ready → s.sym = before ++ x :: after →
    (∀ y ∈ before, tableGet s.code y ≠ []) → tableGet s.code x = [] →
      exec .pack s = .next (errorState s .noCode x 0#8 0x05#8)

/-! ### The unpacker -/

/-- R213: UNPK in READY takes a header from 1 to 8 into DPAD and moves to DEC with a clear decoder;
any other header raises BAD_HEADER. -/
def Obligations.UnpkTakesHeader : Prop :=
  ∀ (s : State) (b : Byte), s.phase = .ready →
    (1 ≤ b.toNat → b.toNat ≤ 8 →
      exec (.unpk b) s = .next
        { s with
          phase := .dec, dpad := BitVec.ofNat 4 b.toNat, dheldV := false, dheld := 0#8, cand := [],
          dcount := 0#32 }) ∧
    ((b.toNat = 0 ∨ 9 ≤ b.toNat) →
      exec (.unpk b) s = .next (errorState s .corruptedStream 0#8 1#8 0x06#8))

/-- R211, R212: UNPK in DEC holds its byte; the byte held before, if any, is scanned first, its
symbols emitted, and an overflow of the candidate ends the command with CAND_OVERFLOW. -/
def Obligations.UnpkDecodesHeldByte : Prop :=
  ∀ (s : State) (b : Byte), s.phase = .dec →
    (s.dheldV = false → exec (.unpk b) s = .next { s with dheld := b, dheldV := true }) ∧
    (s.dheldV = true → ∀ r, r = scan s.code s.maxLen.toNat s.cand (msbFirst s.dheld) →
      (r.overflow = false →
        exec (.unpk b) s = .next { scanned s r with dheld := b, dheldV := true }) ∧
      (r.overflow = true →
        exec (.unpk b) s =
          .next (errorState (scanned s r) .corruptedStream 0#8 4#8 0x06#8)))

/-- R214: UEND: NO_HEADER in READY; NO_DATA with no byte held; then the first 8 − p bits of the held
byte are scanned, CAND_OVERFLOW and LEFTOVER end the command, and otherwise RESULT is DCOUNT, the
decoder is clear and PHASE is READY. -/
def Obligations.UendEndsStream : Prop :=
  ∀ s : State,
    (s.phase = .ready →
      exec .uend s = .next (errorState s .corruptedStream 0#8 2#8 0x07#8)) ∧
    (s.phase = .dec → s.dheldV = false →
      exec .uend s = .next (errorState s .corruptedStream 0#8 3#8 0x07#8)) ∧
    (s.phase = .dec → s.dheldV = true →
      ∀ r, r = scan s.code s.maxLen.toNat s.cand
          ((msbFirst s.dheld).take (8 - s.dpad.toNat)) →
        (r.overflow = true →
          exec .uend s =
            .next (errorState (scanned s r) .corruptedStream 0#8 4#8 0x07#8)) ∧
        (r.overflow = false → r.cand ≠ [] →
          exec .uend s =
            .next (errorState (scanned s r) .corruptedStream 0#8 5#8 0x07#8)) ∧
        (r.overflow = false → r.cand = [] →
          exec .uend s = .next
            { scanned s r with
              phase := .ready, dpad := 0#4, dheldV := false, dheld := 0#8, cand := [],
              dcount := 0#32, result := (scanned s r).dcount }))

/-- R220: UEND does not read the last p bits of the held byte: the same state with another byte held
whose first 8 − p bits are the same ends alike, in success and in error, where the held byte stays
(R214). -/
def Obligations.UendIgnoresPaddingBits : Prop :=
  ∀ (s t : State) (d : Byte),
    s.phase = .dec → s.dheldV = true →
    (msbFirst d).take (8 - s.dpad.toNat) = (msbFirst s.dheld).take (8 - s.dpad.toNat) →
    exec .uend s = .next t →
      exec .uend { s with dheld := d } =
        .next { t with dheld := if t.phase = .ready then t.dheld else d }

/-- R215, R275: DRST in READY, DEC, and in ERROR with TV = 1 clears the decoder, OUT and the error and
goes to READY, keeping table, FREQ, SYM and RESULT; in ERROR with TV = 0 it is ignored. -/
def Obligations.DrstReturnsToReady : Prop :=
  ∀ s : State,
    (s.phase = .ready ∨ s.phase = .dec ∨ (s.phase = .error ∧ s.tv = true) →
      exec .drst s = .next
        { s with
          phase := .ready, dpad := 0#4, dheldV := false, dheld := 0#8, cand := [], dcount := 0#32,
          out := [], err := .none, errInfo := 0#32 }) ∧
    (s.phase = .error → s.tv = false → exec .drst s = .next s)

/-- R176: REV(CODE[x]) = x for every coded symbol of a machine that has its table. -/
def Obligations.ReverseMapInvertsCodes : Prop :=
  ∀ (s : State) (x : Byte),
    s.TableInv → s.tv = true → tableGet s.code x ≠ [] → rev s.code (tableGet s.code x) = some x

/-- R216, first part: a stream of a header p and data bytes, given by UNPK and ended by UEND, is
decoded without error exactly when the source's scan of its bits, without the last p, ends on a code
boundary; then the symbols of that scan are appended to OUT and RESULT is their number. -/
def Obligations.StreamDecodesLikeSource : Prop :=
  ∀ (u : State) (p : Byte) (ds : List Byte) (d : Byte),
    u.phase = .ready → 1 ≤ p.toNat → p.toNat ≤ 8 →
      ∃ t, execAll ((p :: ds ++ [d]).map .unpk ++ [.uend]) u = some t ∧
        ∀ r, r = scan u.code u.maxLen.toNat []
            (ds.flatMap msbFirst ++ (msbFirst d).take (8 - p.toNat)) →
          (t.phase = .ready ↔ r.overflow = false ∧ r.cand = []) ∧
          (t.phase = .ready →
            t.out = u.out ++ r.emitted ∧ t.result = BitVec.ofNat 32 r.emitted.length)

/-- R216, the round trip: PACK of a buffer that FREQ counts, its bytes given to UNPK and UEND on any
instance in READY whose table was built from the same FREQ, appends exactly the buffered symbols, in
order, with RESULT = SYM_LEN mod 2^32 and no error. -/
def Obligations.PackUnpackRoundTrip : Prop :=
  ∀ s u : State,
    s.Inv → s.phase = .ready → s.CountsSym → s.sym ≠ [] →
    u.Inv → u.phase = .ready → u.freq = s.freq →
      ∃ t bytes v, exec .pack s = .next t ∧ t.out = s.out ++ bytes ∧
        execAll (bytes.map .unpk ++ [.uend]) u = some v ∧
        v.out = u.out ++ s.sym ∧ v.result = BitVec.ofNat 32 s.symLen ∧ v.phase = .ready ∧
        v.err = .none

/-! ### Rules over all commands -/

/-- R245: every change of PHASE is one of the listed ones: by a performed command, or to FILL by
reset (an edge of the reset input). -/
def Obligations.PhaseTransitionsListed : Prop :=
  ∀ s t : State, step s = .next t →
    t.phase = s.phase ∨ (t.resetLine ≠ s.resetLine ∧ t.phase = .fill) ∨
      ∃ p, s.pending = some p ∧ phaseChange (decode p.word) s t

/-- R244: what each command leaves in RESULT when it succeeds; a command that raises, and one that is
ignored in ERROR, leaves RESULT as it was. -/
def Obligations.ResultOfEachCommand : Prop :=
  ∀ (i : Instr) (s t : State), exec i s = .next t →
    ((s.phase ≠ .error ∨ i = .clr ∨ i = .drst) → t.phase ≠ .error → resultAfter i s t) ∧
    (t.phase = .error → t.result = s.result)

/-- R84, R51: which commands write which element. -/
def Obligations.OnlyTheseCommandsWrite : Prop :=
  ∀ (i : Instr) (s t : State), exec i s = .next t →
    (t.freq ≠ s.freq → (∃ x, i = .put x) ∨ (∃ x, i = .ldfreq x) ∨ i = .clr) ∧
    (t.sym ≠ s.sym → (∃ x, i = .put x) ∨ i = .clr) ∧
    (t.code ≠ s.code ∨ t.maxLen ≠ s.maxLen ∨ t.tv ≠ s.tv → i = .build ∨ i = .clr) ∧
    (t.dpad ≠ s.dpad ∨ t.dheld ≠ s.dheld ∨ t.dheldV ≠ s.dheldV ∨ t.cand ≠ s.cand ∨
        t.dcount ≠ s.dcount →
      (∃ b, i = .unpk b) ∨ i = .uend ∨ i = .drst ∨ i = .clr) ∧
    (t.out ≠ s.out →
      ((i = .pack ∨ (∃ b, i = .unpk b) ∨ i = .uend) ∧ ∃ l, t.out = s.out ++ l) ∨
        ((i = .clr ∨ i = .drst) ∧ t.out = []))

/-! ### The host's accesses -/

/-- R74: a CMD write while BUSY = 0 captures the word with ARG; while a command is in flight the host
has no step; with only an output queue above OUT_DEPTH to wait for, and no reset following, it waits
forever (R306). The model's choice: that wait is the fault hostWaitsForever, and a reset that follows
cuts it off (assumption log 11). -/
def Obligations.CmdWriteCapturesOrWaits : Prop :=
  ∀ (s : State) (w : Word) (rest : List HostOp),
    s.resetLine = false → s.cfg.windowOrdered = true →
    s.host = .write s.cfg.base 4 w :: rest →
      (s.pending = none → s.tail = false → s.out.length ≤ s.cfg.outDepth →
        stepsTo s { s with host := rest, pending := some ⟨w, s.arg⟩ }) ∧
      (s.pending ≠ none ∨ s.tail = true → step s = blockTurn s) ∧
      (s.pending = none → s.tail = false → s.cfg.outDepth < s.out.length →
        (∀ rest', rest ≠ .assertReset :: rest') → step s = .fault .hostWaitsForever)

/-- R75, R76: ARG and CTRL accesses act at once, BUSY or not, and touch no command in flight; CTRL has
two bits and reads 0 above them. -/
def Obligations.ArgAndCtrlAccesses : Prop :=
  ∀ (s : State) (v : Word) (rest : List HostOp), hostTurnIn s →
    (s.host = .write (s.cfg.base + 0x04) 4 v :: rest →
      stepsTo s { afterIgnored s rest with arg := v }) ∧
    (s.host = .read (s.cfg.base + 0x04) 4 :: rest →
      stepsTo s (afterRead s rest .arg s.arg)) ∧
    (s.host = .write (s.cfg.base + 0x14) 4 v :: rest →
      stepsTo s { afterIgnored s rest with ctrl := v.extractLsb' 0 2 }) ∧
    (s.host = .read (s.cfg.base + 0x14) 4 :: rest →
      stepsTo s (afterRead s rest .ctrl (0#30 ++ s.ctrl)))

/-- R73: reserved offsets read 0; writes to them and to read-only registers are ignored; a CMD read
returns 0 and launches nothing. -/
def Obligations.ReservedAndReadOnlyAccesses : Prop :=
  ∀ (s : State) (v : Word) (rest : List HostOp) (off : Nat), hostTurnIn s →
    (off ∈ [0x28, 0x2C, 0x30, 0x34, 0x38, 0x3C] → s.host = .read (s.cfg.base + off) 4 :: rest →
      stepsTo s (afterRead s rest .reserved 0#32)) ∧
    (off ∈ [0x28, 0x2C, 0x30, 0x34, 0x38, 0x3C, 0x08, 0x0C, 0x10, 0x18, 0x1C, 0x20, 0x24] →
      s.host = .write (s.cfg.base + off) 4 v :: rest →
      stepsTo s (afterIgnored s rest)) ∧
    (s.host = .read s.cfg.base 4 :: rest → stepsTo s (afterRead s rest .cmd 0#32))

/-- R80: a read of STATUS, RESULT, ERRINFO or SYMLEN is exact while BUSY = 0 and a draw (the model's
free value, assumption log 2) while BUSY = 1, with STATUS bit 31 = 1; ID, CAP, ARG and CTRL are exact
at all times; no read stalls. -/
def Obligations.RegisterReads : Prop :=
  ∀ (s : State) (rest : List HostOp) (off : Nat) (r : WindowReg) (exact : Word), hostTurnIn s →
    s.host = .read (s.cfg.base + off) 4 :: rest →
    ((off = 0x08 ∧ r = .status ∧ exact = s.statusWord) ∨
      (off = 0x0C ∧ r = .result ∧ exact = s.result) ∨
      (off = 0x10 ∧ r = .errinfo ∧ exact = s.errInfo) ∨
      (off = 0x1C ∧ r = .symlen ∧ exact = BitVec.ofNat 32 s.symLen) →
      (s.busy = false → stepsTo s (afterRead s rest r exact)) ∧
      (s.busy = true → ∃ v, stepsTo s (afterRead s rest r v) ∧
        (r ≠ .status → v = Config.freeWord s.draws) ∧
        (r = .status → v.getLsbD 31 = true ∧
          v.setWidth 31 = (Config.freeWord s.draws).setWidth 31))) ∧
    (off = 0x20 → stepsTo s (afterRead s rest .id 0x48554601#32)) ∧
    (off = 0x24 → stepsTo s (afterRead s rest .cap (BitVec.ofNat 32 s.cfg.symCap))) ∧
    (off = 0x04 → stepsTo s (afterRead s rest .arg s.arg)) ∧
    (off = 0x14 → stepsTo s (afterRead s rest .ctrl (0#30 ++ s.ctrl))) ∧
    (off < 0x40 → off % 4 = 0 → ∃ t, step s = .next t)

/-- R46: the fields of STATUS, with the numbers of PHASE (R31) and ERR (R261), BUSY being that of R78;
reading it changes nothing but the model's own count of draws. -/
def Obligations.StatusFields : Prop :=
  ∀ s : State,
    s.statusWord.extractLsb' 0 3 =
      (match s.phase with | .fill => 0#3 | .ready => 1#3 | .dec => 2#3 | .error => 3#3) ∧
    s.statusWord.getLsbD 3 = s.tv ∧
    s.statusWord.extractLsb' 4 4 =
      (match s.err with
      | .none => 0#4 | .emptyInput => 1#4 | .corruptedStream => 2#4 | .illegalCommand => 3#4
      | .sequence => 4#4 | .symOverflow => 5#4 | .noCode => 6#4 | .freqOverflow => 7#4) ∧
    s.statusWord.extractLsb' 8 8 = s.maxLen ∧
    s.statusWord.extractLsb' 16 4 = s.dpad ∧
    s.statusWord.getLsbD 20 = s.dheldV ∧
    s.statusWord.getLsbD 21 = decide (s.out ≠ []) ∧
    s.statusWord.extractLsb' 22 9 = 0#9 ∧
    (s.statusWord.getLsbD 31 = true ↔
      s.pending ≠ none ∨ s.tail = true ∨ s.cfg.outDepth < s.out.length) ∧
    { (readReg .status s).2 with draws := s.draws } = s

/-- R81: an OUT_DATA read of an empty OUT returns 0; with no command in flight it pops the head of a
non-empty OUT, with VALID set (R48); with one in flight it does one or the other. -/
def Obligations.OutDataRead : Prop :=
  ∀ (s : State) (rest : List HostOp), hostTurnIn s →
    s.host = .read (s.cfg.base + 0x18) 4 :: rest →
      (s.out = [] → stepsTo s (afterRead s rest .outData 0#32)) ∧
      ∀ (b : Byte) (q : List Byte), s.out = b :: q →
        (s.pending = none → s.tail = false →
          stepsTo s
            { afterRead s rest .outData (0x00000100#32 ||| b.setWidth 32) with out := q }) ∧
        (s.pending ≠ none ∨ s.tail = true →
          stepsTo s
            { afterRead s rest .outData (0x00000100#32 ||| b.setWidth 32) with out := q } ∨
          stepsTo s (afterRead s rest .outData 0#32))

/-- R77: a host access changes nothing of the block but ARG and CTRL, save that a CMD write sets
PENDING and an OUT_DATA read may pop the head of OUT; every other read leaves the block as it is
while BUSY = 0, so that it returns the same again. -/
def Obligations.HostAccessesChangeOnly : Prop :=
  (∀ (s : State) (r : WindowReg), r ≠ .outData → s.busy = false → (readReg r s).2 = s) ∧
  ∀ s t : State, hostTurnIn s → step s = .next t → t.resetLine = false →
    t = { s with
      arg := t.arg, ctrl := t.ctrl, pending := t.pending, out := t.out, host := t.host,
      reads := t.reads, delay := t.delay, draws := t.draws } ∧
    (t.pending ≠ s.pending →
      ∃ w rest, s.host = .write s.cfg.base 4 w :: rest ∧ t.pending = some ⟨w, s.arg⟩) ∧
    (t.out ≠ s.out → ∃ b, s.out = b :: t.out ∧
      t.reads = s.reads ++ [⟨.outData, 0x00000100#32 ||| b.setWidth 32⟩])

/-- R280: the interrupt line, with BUSY as R78 defines it. -/
def Obligations.IrqCauses : Prop :=
  ∀ s : State, s.irq = true ↔
    (s.ctrl.getLsbD 0 = true ∧ s.phase = .error) ∨
    (s.ctrl.getLsbD 1 = true ∧ s.pending = none ∧ s.tail = false ∧
      s.out.length ≤ s.cfg.outDepth)

/-- R72: an access in the window that is not 32 bits wide or not at a multiple of 4 is refused. -/
def Obligations.NarrowAccessesRefused : Prop :=
  ∀ (s : State) (v : Word) (rest : List HostOp) (off bytes : Nat), hostTurnIn s → off < 0x40 →
    (bytes ≠ 4 ∨ off % 4 ≠ 0) →
    (s.host = .read (s.cfg.base + off) bytes :: rest ∨
      s.host = .write (s.cfg.base + off) bytes v :: rest) →
      step s = .refused .notWholeWord

/-! ### Reset -/

/-- R300: while reset is asserted the block takes no step, whatever the host's list holds: an access
is refused (R311 item 2), a second assertion is only dropped, and only the release goes on; when reset
is released, every element of the block has its value after reset (R53), whatever it was before. The
model's choices: PENDING is empty from the assertion on, and a second assertion is dropped (assumption
log 12); the name of the refusal (log 13); the reads noted before stay noted (log 19). -/
def Obligations.ResetFromAnyState : Prop :=
  ∀ (s : State) (rest : List HostOp),
    (s.resetLine = false → blockMovesNext s = false → s.host = .assertReset :: rest →
      ∃ t, step s = .next t ∧ t.resetLine = true ∧ t.pending = none ∧ t.host = rest) ∧
    (s.resetLine = true →
      (s.host = [] → step s = .next s) ∧
      (s.host = .assertReset :: rest → step s = .next { s with host := rest }) ∧
      (∀ op : HostOp, op ≠ .assertReset → op ≠ .releaseReset → s.host = op :: rest →
        step s = .refused .accessDuringReset) ∧
      (s.host = .releaseReset :: rest →
        step s = .next
          { State.resetWith s.cfg with host := rest, reads := s.reads, draws := s.draws }))

/-- R301: what every register reads right after reset, for every choice of the parameters; irq is
low and the block is not busy. -/
def Obligations.RegistersAfterReset : Prop :=
  ∀ p : Params, ∀ s : State, s = State.resetWith p →
    s.busy = false ∧ s.irq = false ∧
    readReg .status s = (0#32, s) ∧ readReg .id s = (0x48554601#32, s) ∧
    readReg .cap s = (BitVec.ofNat 32 p.symCap, s) ∧
    ∀ r, r ≠ .status → r ≠ .id → r ≠ .cap → readReg r s = (0#32, s)

/-! ### Invariants and whole runs -/

/-- The state after reset has the invariant, for every choice of the parameters. -/
def Obligations.ResetHasInvariant : Prop := ∀ p : Params, (State.resetWith p).Inv

/-- R52, items 1 to 5 and the bound of item 6, with R32 and R36: every step from a state that has the
invariant leaves one that has it. -/
def Obligations.StepKeepsInvariant : Prop :=
  ∀ s t : State, s.Inv → step s = .next t → t.Inv

/-- R52 item 6: FREQ counts SYM across every step that performs no LDFREQ. -/
def Obligations.StepKeepsCounts : Prop :=
  ∀ s t : State, s.CountsSym → step s = .next t →
    (∀ p x, s.pending = some p → decode p.word ≠ .ok (.ldfreq x)) → t.CountsSym

/-- R304: no step changes the parameters. -/
def Obligations.ParametersFixed : Prop :=
  ∀ s t : State, step s = .next t → t.cfg = s.cfg

/-- R306, R316: WAIT ends. From every state with reset released, a host that runs WAIT comes, after
finitely many steps and without a stop, to BUSY = 0 with the rest of its program to come. The finite
delays of the model are the fairness the rule assumes (assumption log 4). -/
def Obligations.WaitTerminates : Prop :=
  ∀ (s : State) (rest : List HostOp),
    s.resetLine = false → s.cfg.windowOrdered = true → s.host = .wait :: rest →
      ∃ n t, Host.Core.run core n s = .next t ∧ t.host = rest ∧ t.busy = false
end

