-- ==== Sys2Proof/Laws/Bits.lean ====
section
/-! SUPPORT. Bytes, words and bit strings: `byteOf` and `bits8` are inverse, and the 8-bit groups of a
string spell the string. -/

namespace Sys2Proof.Machine

/-- The bits of a byte written out. -/
theorem bits8_eq (b : Byte) :
    bits8 b = [b.getLsbD 7, b.getLsbD 6, b.getLsbD 5, b.getLsbD 4, b.getLsbD 3, b.getLsbD 2,
      b.getLsbD 1, b.getLsbD 0] := rfl

@[simp] theorem bits8_length (b : Byte) : (bits8 b).length = 8 := rfl

theorem bitsToNat_append (g : Bits) (t : Bool) : bitsToNat (g ++ [t]) = 2 * bitsToNat g + t.toNat := by
  simp [bitsToNat]

theorem bitsToNat_lt (g : Bits) : bitsToNat g < 2 ^ g.length := by
  induction g using List.reverseRecOn with
  | nil => simp [bitsToNat]
  | append_singleton g t ih =>
    rw [bitsToNat_append, List.length_append, List.length_singleton, pow_succ]
    have := Bool.toNat_le t
    omega

/-- Bit `i` from the end of the string is bit `i` of the number. -/
theorem bitsToNat_testBit (g : Bits) (i : Nat) (h : i < g.length) :
    (bitsToNat g).testBit i = g[g.length - 1 - i] := by
  induction g using List.reverseRecOn generalizing i with
  | nil => simp at h
  | append_singleton g t ih =>
    rw [bitsToNat_append]
    cases i with
    | zero =>
      cases t <;> simp [Nat.testBit_zero]
    | succ i =>
      have hlen : i < g.length := by simpa using h
      have hdiv : (2 * bitsToNat g + t.toNat) / 2 = bitsToNat g := by
        have := Bool.toNat_le t
        omega
      rw [Nat.testBit_succ, hdiv, ih i hlen, List.getElem_append_left]
      · congr 1
        simp only [List.length_append, List.length_singleton]
        omega
      · simp only [List.length_append, List.length_singleton]
        omega

/-- `bits8` undoes `byteOf` on a group of 8 bits. -/
theorem bits8_byteOf (g : Bits) (h : g.length = 8) : bits8 (byteOf g) = g := by
  apply List.ext_getElem
  · simp [h]
  · intro j h₁ h₂
    have hj : j < 8 := by simpa using h₁
    have hb : 7 - j < g.length := by omega
    have hidx : g.length - 1 - (7 - j) = j := by omega
    have hbit := bitsToNat_testBit g (7 - j) hb
    have hlt : 7 - j < 8 := by omega
    simp only [bits8, byteOf, List.getElem_map, List.getElem_range, BitVec.getLsbD_ofNat, hlt,
      decide_true, Bool.true_and, hbit, hidx]

/-- `byteOf` undoes `bits8`. -/
theorem byteOf_bits8 (b : Byte) : byteOf (bits8 b) = b := by
  apply BitVec.eq_of_getLsbD_eq
  intro i hi
  have hi' : i < (bits8 b).length := by simpa using hi
  have hrev : 7 - (7 - i) = i := by omega
  have hget : (bits8 b)[(bits8 b).length - 1 - i] = b.getLsbD i := by
    simp [bits8, hrev]
  simp only [byteOf, BitVec.getLsbD_ofNat, hi, decide_true, Bool.true_and,
    bitsToNat_testBit _ i hi', hget]

@[simp] theorem groups8_length (n : Nat) (g : Bits) : (groups8 n g).length = n := by
  induction n generalizing g with
  | zero => rfl
  | succ n ih => simp [groups8, ih]

/-- The bits of the bytes of the first `n` groups are the first 8n bits. -/
theorem flatMap_bits8_groups8 (n : Nat) (g : Bits) (h : g.length = 8 * n) :
    ((groups8 n g).map byteOf).flatMap bits8 = g := by
  induction n generalizing g with
  | zero => simpa [groups8] using (List.eq_nil_of_length_eq_zero h).symm
  | succ n ih =>
    have h8 : (g.take 8).length = 8 := by simp; omega
    have hd : (g.drop 8).length = 8 * n := by simp; omega
    simp [groups8, bits8_byteOf _ h8, ih _ hd]

/-- Bit 31−j of a chunk is the code bit 32k+j, 0 beyond the code (R178). -/
theorem codeChunk_getLsbD (c : Bits) (k j : Nat) (hj : j < 32) :
    (codeChunk c k).getLsbD (31 - j) = c.getD (32 * k + j) false := by
  have hlt : 31 - j < 32 := by omega
  have h := bitsToNat_testBit ((List.range 32).map fun j => c.getD (32 * k + j) false) (31 - j)
    (by simpa using hlt)
  have hidx : 31 - (31 - j) = j := by omega
  simp only [codeChunk, BitVec.getLsbD_ofNat, hlt, decide_true, Bool.true_and, h,
    List.length_map, List.length_range, List.getElem_map, List.getElem_range]
  simp only [Nat.add_one_sub_one, hidx]

end Sys2Proof.Machine
end

