-- ==== Sys2Proof/Laws/Codec.lean ====
section
/-! SUPPORT. Command words: the fields of an encoded word, and the decoder's answers in terms of the
fields. -/

namespace Sys2Proof

/-- Bit `i` of a word made of its fields. -/
theorem getLsbD_packFields (r k s o : Byte) (i : Nat) :
    (packFields r k s o).getLsbD i =
      if i < 8 then o.getLsbD i else if i < 16 then s.getLsbD (i - 8)
      else if i < 24 then k.getLsbD (i - 16) else r.getLsbD (i - 24) := by
  have h : (packFields r k s o).getLsbD i = (r ++ k ++ s ++ o : BitVec (8 + 8 + 8 + 8)).getLsbD i :=
    rfl
  rw [h, BitVec.getLsbD_append, BitVec.getLsbD_append, BitVec.getLsbD_append]
  have e1 : (i - 8 < 8) = (i < 16) := by
    apply propext; omega
  have e2 : (i - 16 < 8) = (i < 24) := by
    apply propext; omega
  simp only [e1, Nat.sub_sub, Nat.reduceAdd, e2]

@[simp] theorem fieldOpc_packFields (r k s o : Byte) : fieldOpc (packFields r k s o) = o := by
  apply BitVec.eq_of_getLsbD_eq
  intro i hi
  simp only [fieldOpc, BitVec.getLsbD_extractLsb', hi, decide_true, Bool.true_and,
    getLsbD_packFields, Nat.zero_add, if_true]

@[simp] theorem fieldS_packFields (r k s o : Byte) : fieldS (packFields r k s o) = s := by
  apply BitVec.eq_of_getLsbD_eq
  intro i hi
  simp only [fieldS, BitVec.getLsbD_extractLsb', hi, decide_true, Bool.true_and,
    getLsbD_packFields, show ¬ 8 + i < 8 by omega, show 8 + i < 16 by omega, if_true, if_false,
    Nat.add_sub_cancel_left]

@[simp] theorem fieldK_packFields (r k s o : Byte) : fieldK (packFields r k s o) = k := by
  apply BitVec.eq_of_getLsbD_eq
  intro i hi
  simp only [fieldK, BitVec.getLsbD_extractLsb', hi, decide_true, Bool.true_and,
    getLsbD_packFields, show ¬ 16 + i < 8 by omega, show ¬ 16 + i < 16 by omega,
    show 16 + i < 24 by omega, if_true, if_false, Nat.add_sub_cancel_left]

@[simp] theorem fieldRsv_packFields (r k s o : Byte) : fieldRsv (packFields r k s o) = r := by
  apply BitVec.eq_of_getLsbD_eq
  intro i hi
  simp only [fieldRsv, BitVec.getLsbD_extractLsb', hi, decide_true, Bool.true_and,
    getLsbD_packFields, show ¬ 24 + i < 8 by omega, show ¬ 24 + i < 16 by omega,
    show ¬ 24 + i < 24 by omega, if_false, Nat.add_sub_cancel_left]

/-- A word is made of its fields. -/
theorem packFields_fields (w : Word) :
    packFields (fieldRsv w) (fieldK w) (fieldS w) (fieldOpc w) = w := by
  apply BitVec.eq_of_getLsbD_eq
  intro i hi
  simp only [getLsbD_packFields, fieldRsv, fieldK, fieldS, fieldOpc, BitVec.getLsbD_extractLsb']
  split
  · simp_all
  split
  · simp [show i - 8 < 8 by omega, show 8 + (i - 8) = i by omega]
  split
  · simp [show i - 16 < 8 by omega, show 16 + (i - 16) = i by omega]
  · simp [show i - 24 < 8 by omega, show 24 + (i - 24) = i by omega]

/-- Words with equal fields are equal. -/
theorem word_ext {w v : Word} (h3 : fieldRsv w = fieldRsv v) (h2 : fieldK w = fieldK v)
    (h1 : fieldS w = fieldS v) (h0 : fieldOpc w = fieldOpc v) : w = v := by
  rw [← packFields_fields w, ← packFields_fields v, h3, h2, h1, h0]

/-- OPC of an encoded command (R102). -/
@[simp] theorem fieldOpc_encode (i : Instr) : fieldOpc (encode i) = i.opcode := by
  cases i <;> simp [encode, Instr.opcode]

/-- RSV of an encoded command is 0 (R100). -/
@[simp] theorem fieldRsv_encode (i : Instr) : fieldRsv (encode i) = 0#8 := by
  cases i <;> simp [encode]

/-! ### The three shapes of command -/

theorem decodePlain_ok {w : Word} {i j : Instr} :
    decodePlain w i = .ok j ↔ i = j ∧ fieldS w = 0#8 ∧ fieldK w = 0#8 := by
  unfold decodePlain
  split <;> simp_all

theorem decodeS_ok {w : Word} {f : Byte → Instr} {j : Instr} :
    decodeS w f = .ok j ↔ f (fieldS w) = j ∧ fieldK w = 0#8 := by
  unfold decodeS
  split <;> simp_all

theorem decodeSK_ok {w : Word} {f : Byte → Byte → Instr} {j : Instr} :
    decodeSK w f = .ok j ↔ f (fieldS w) (fieldK w) = j ∧ fieldK w ≤ 7#8 := by
  unfold decodeSK
  split <;> simp_all

/-- An opcode above 0x0B decodes to no command (R102). -/
theorem decode_unknown {w : Word} (h : 0x0C ≤ (fieldOpc w).toNat) (i : Instr) :
    decode w ≠ .ok i := by
  unfold decode
  split
  · split <;> first | omega | simp
  · simp

end Sys2Proof
end

