-- ==== Sys2Proof/Laws/State.lean ====
section
/-! SUPPORT. One lemma per field and named update of the state, each true by definition, so that no
proof unfolds a record update. -/

namespace Sys2Proof.Machine

/-! ### `raise` -/

@[simp] theorem raise_cfg (opc : Byte) (e : ErrCode) (d : Detail) (x : Byte) (s : State) :
    (raise opc e d x s).cfg = s.cfg := rfl
@[simp] theorem raise_phase (opc : Byte) (e : ErrCode) (d : Detail) (x : Byte) (s : State) :
    (raise opc e d x s).phase = .error := rfl
@[simp] theorem raise_tv (opc : Byte) (e : ErrCode) (d : Detail) (x : Byte) (s : State) :
    (raise opc e d x s).tv = s.tv := rfl
@[simp] theorem raise_freq (opc : Byte) (e : ErrCode) (d : Detail) (x : Byte) (s : State) :
    (raise opc e d x s).freq = s.freq := rfl
@[simp] theorem raise_sym (opc : Byte) (e : ErrCode) (d : Detail) (x : Byte) (s : State) :
    (raise opc e d x s).sym = s.sym := rfl
@[simp] theorem raise_code (opc : Byte) (e : ErrCode) (d : Detail) (x : Byte) (s : State) :
    (raise opc e d x s).code = s.code := rfl
@[simp] theorem raise_maxLen (opc : Byte) (e : ErrCode) (d : Detail) (x : Byte) (s : State) :
    (raise opc e d x s).maxLen = s.maxLen := rfl
@[simp] theorem raise_dpad (opc : Byte) (e : ErrCode) (d : Detail) (x : Byte) (s : State) :
    (raise opc e d x s).dpad = s.dpad := rfl
@[simp] theorem raise_dheldV (opc : Byte) (e : ErrCode) (d : Detail) (x : Byte) (s : State) :
    (raise opc e d x s).dheldV = s.dheldV := rfl
@[simp] theorem raise_dheld (opc : Byte) (e : ErrCode) (d : Detail) (x : Byte) (s : State) :
    (raise opc e d x s).dheld = s.dheld := rfl
@[simp] theorem raise_cand (opc : Byte) (e : ErrCode) (d : Detail) (x : Byte) (s : State) :
    (raise opc e d x s).cand = s.cand := rfl
@[simp] theorem raise_dcount (opc : Byte) (e : ErrCode) (d : Detail) (x : Byte) (s : State) :
    (raise opc e d x s).dcount = s.dcount := rfl
@[simp] theorem raise_out (opc : Byte) (e : ErrCode) (d : Detail) (x : Byte) (s : State) :
    (raise opc e d x s).out = s.out := rfl
@[simp] theorem raise_pending (opc : Byte) (e : ErrCode) (d : Detail) (x : Byte) (s : State) :
    (raise opc e d x s).pending = s.pending := rfl
@[simp] theorem raise_tail (opc : Byte) (e : ErrCode) (d : Detail) (x : Byte) (s : State) :
    (raise opc e d x s).tail = s.tail := rfl
@[simp] theorem raise_arg (opc : Byte) (e : ErrCode) (d : Detail) (x : Byte) (s : State) :
    (raise opc e d x s).arg = s.arg := rfl
@[simp] theorem raise_result (opc : Byte) (e : ErrCode) (d : Detail) (x : Byte) (s : State) :
    (raise opc e d x s).result = s.result := rfl
@[simp] theorem raise_err (opc : Byte) (e : ErrCode) (d : Detail) (x : Byte) (s : State) :
    (raise opc e d x s).err = e := rfl
@[simp] theorem raise_errInfo (opc : Byte) (e : ErrCode) (d : Detail) (x : Byte) (s : State) :
    (raise opc e d x s).errInfo = errInfoWord opc d x := rfl
@[simp] theorem raise_ctrl (opc : Byte) (e : ErrCode) (d : Detail) (x : Byte) (s : State) :
    (raise opc e d x s).ctrl = s.ctrl := rfl
@[simp] theorem raise_resetLine (opc : Byte) (e : ErrCode) (d : Detail) (x : Byte) (s : State) :
    (raise opc e d x s).resetLine = s.resetLine := rfl
@[simp] theorem raise_host (opc : Byte) (e : ErrCode) (d : Detail) (x : Byte) (s : State) :
    (raise opc e d x s).host = s.host := rfl
@[simp] theorem raise_reads (opc : Byte) (e : ErrCode) (d : Detail) (x : Byte) (s : State) :
    (raise opc e d x s).reads = s.reads := rfl
@[simp] theorem raise_delay (opc : Byte) (e : ErrCode) (d : Detail) (x : Byte) (s : State) :
    (raise opc e d x s).delay = s.delay := rfl
@[simp] theorem raise_draws (opc : Byte) (e : ErrCode) (d : Detail) (x : Byte) (s : State) :
    (raise opc e d x s).draws = s.draws := rfl

/-! ### `pushOut` -/

@[simp] theorem pushOut_cfg (b : Byte) (s : State) :
    (pushOut b s).cfg = s.cfg := rfl
@[simp] theorem pushOut_phase (b : Byte) (s : State) :
    (pushOut b s).phase = s.phase := rfl
@[simp] theorem pushOut_tv (b : Byte) (s : State) :
    (pushOut b s).tv = s.tv := rfl
@[simp] theorem pushOut_freq (b : Byte) (s : State) :
    (pushOut b s).freq = s.freq := rfl
@[simp] theorem pushOut_sym (b : Byte) (s : State) :
    (pushOut b s).sym = s.sym := rfl
@[simp] theorem pushOut_code (b : Byte) (s : State) :
    (pushOut b s).code = s.code := rfl
@[simp] theorem pushOut_maxLen (b : Byte) (s : State) :
    (pushOut b s).maxLen = s.maxLen := rfl
@[simp] theorem pushOut_dpad (b : Byte) (s : State) :
    (pushOut b s).dpad = s.dpad := rfl
@[simp] theorem pushOut_dheldV (b : Byte) (s : State) :
    (pushOut b s).dheldV = s.dheldV := rfl
@[simp] theorem pushOut_dheld (b : Byte) (s : State) :
    (pushOut b s).dheld = s.dheld := rfl
@[simp] theorem pushOut_cand (b : Byte) (s : State) :
    (pushOut b s).cand = s.cand := rfl
@[simp] theorem pushOut_dcount (b : Byte) (s : State) :
    (pushOut b s).dcount = s.dcount := rfl
@[simp] theorem pushOut_out (b : Byte) (s : State) :
    (pushOut b s).out = s.out ++ [b] := rfl
@[simp] theorem pushOut_pending (b : Byte) (s : State) :
    (pushOut b s).pending = s.pending := rfl
@[simp] theorem pushOut_tail (b : Byte) (s : State) :
    (pushOut b s).tail = s.tail := rfl
@[simp] theorem pushOut_arg (b : Byte) (s : State) :
    (pushOut b s).arg = s.arg := rfl
@[simp] theorem pushOut_result (b : Byte) (s : State) :
    (pushOut b s).result = s.result := rfl
@[simp] theorem pushOut_err (b : Byte) (s : State) :
    (pushOut b s).err = s.err := rfl
@[simp] theorem pushOut_errInfo (b : Byte) (s : State) :
    (pushOut b s).errInfo = s.errInfo := rfl
@[simp] theorem pushOut_ctrl (b : Byte) (s : State) :
    (pushOut b s).ctrl = s.ctrl := rfl
@[simp] theorem pushOut_resetLine (b : Byte) (s : State) :
    (pushOut b s).resetLine = s.resetLine := rfl
@[simp] theorem pushOut_host (b : Byte) (s : State) :
    (pushOut b s).host = s.host := rfl
@[simp] theorem pushOut_reads (b : Byte) (s : State) :
    (pushOut b s).reads = s.reads := rfl
@[simp] theorem pushOut_delay (b : Byte) (s : State) :
    (pushOut b s).delay = s.delay := rfl
@[simp] theorem pushOut_draws (b : Byte) (s : State) :
    (pushOut b s).draws = s.draws := rfl

/-! ### `clearDecoder` -/

@[simp] theorem clearDecoder_cfg (s : State) :
    (clearDecoder s).cfg = s.cfg := rfl
@[simp] theorem clearDecoder_phase (s : State) :
    (clearDecoder s).phase = s.phase := rfl
@[simp] theorem clearDecoder_tv (s : State) :
    (clearDecoder s).tv = s.tv := rfl
@[simp] theorem clearDecoder_freq (s : State) :
    (clearDecoder s).freq = s.freq := rfl
@[simp] theorem clearDecoder_sym (s : State) :
    (clearDecoder s).sym = s.sym := rfl
@[simp] theorem clearDecoder_code (s : State) :
    (clearDecoder s).code = s.code := rfl
@[simp] theorem clearDecoder_maxLen (s : State) :
    (clearDecoder s).maxLen = s.maxLen := rfl
@[simp] theorem clearDecoder_dpad (s : State) :
    (clearDecoder s).dpad = 0#4 := rfl
@[simp] theorem clearDecoder_dheldV (s : State) :
    (clearDecoder s).dheldV = false := rfl
@[simp] theorem clearDecoder_dheld (s : State) :
    (clearDecoder s).dheld = 0#8 := rfl
@[simp] theorem clearDecoder_cand (s : State) :
    (clearDecoder s).cand = [] := rfl
@[simp] theorem clearDecoder_dcount (s : State) :
    (clearDecoder s).dcount = 0#32 := rfl
@[simp] theorem clearDecoder_out (s : State) :
    (clearDecoder s).out = s.out := rfl
@[simp] theorem clearDecoder_pending (s : State) :
    (clearDecoder s).pending = s.pending := rfl
@[simp] theorem clearDecoder_tail (s : State) :
    (clearDecoder s).tail = s.tail := rfl
@[simp] theorem clearDecoder_arg (s : State) :
    (clearDecoder s).arg = s.arg := rfl
@[simp] theorem clearDecoder_result (s : State) :
    (clearDecoder s).result = s.result := rfl
@[simp] theorem clearDecoder_err (s : State) :
    (clearDecoder s).err = s.err := rfl
@[simp] theorem clearDecoder_errInfo (s : State) :
    (clearDecoder s).errInfo = s.errInfo := rfl
@[simp] theorem clearDecoder_ctrl (s : State) :
    (clearDecoder s).ctrl = s.ctrl := rfl
@[simp] theorem clearDecoder_resetLine (s : State) :
    (clearDecoder s).resetLine = s.resetLine := rfl
@[simp] theorem clearDecoder_host (s : State) :
    (clearDecoder s).host = s.host := rfl
@[simp] theorem clearDecoder_reads (s : State) :
    (clearDecoder s).reads = s.reads := rfl
@[simp] theorem clearDecoder_delay (s : State) :
    (clearDecoder s).delay = s.delay := rfl
@[simp] theorem clearDecoder_draws (s : State) :
    (clearDecoder s).draws = s.draws := rfl

/-! ### `leaveToReady` -/

@[simp] theorem leaveToReady_cfg (s : State) :
    (leaveToReady s).cfg = s.cfg := rfl
@[simp] theorem leaveToReady_phase (s : State) :
    (leaveToReady s).phase = .ready := rfl
@[simp] theorem leaveToReady_tv (s : State) :
    (leaveToReady s).tv = s.tv := rfl
@[simp] theorem leaveToReady_freq (s : State) :
    (leaveToReady s).freq = s.freq := rfl
@[simp] theorem leaveToReady_sym (s : State) :
    (leaveToReady s).sym = s.sym := rfl
@[simp] theorem leaveToReady_code (s : State) :
    (leaveToReady s).code = s.code := rfl
@[simp] theorem leaveToReady_maxLen (s : State) :
    (leaveToReady s).maxLen = s.maxLen := rfl
@[simp] theorem leaveToReady_dpad (s : State) :
    (leaveToReady s).dpad = 0#4 := rfl
@[simp] theorem leaveToReady_dheldV (s : State) :
    (leaveToReady s).dheldV = false := rfl
@[simp] theorem leaveToReady_dheld (s : State) :
    (leaveToReady s).dheld = 0#8 := rfl
@[simp] theorem leaveToReady_cand (s : State) :
    (leaveToReady s).cand = [] := rfl
@[simp] theorem leaveToReady_dcount (s : State) :
    (leaveToReady s).dcount = 0#32 := rfl
@[simp] theorem leaveToReady_out (s : State) :
    (leaveToReady s).out = [] := rfl
@[simp] theorem leaveToReady_pending (s : State) :
    (leaveToReady s).pending = s.pending := rfl
@[simp] theorem leaveToReady_tail (s : State) :
    (leaveToReady s).tail = s.tail := rfl
@[simp] theorem leaveToReady_arg (s : State) :
    (leaveToReady s).arg = s.arg := rfl
@[simp] theorem leaveToReady_result (s : State) :
    (leaveToReady s).result = s.result := rfl
@[simp] theorem leaveToReady_err (s : State) :
    (leaveToReady s).err = .none := rfl
@[simp] theorem leaveToReady_errInfo (s : State) :
    (leaveToReady s).errInfo = 0#32 := rfl
@[simp] theorem leaveToReady_ctrl (s : State) :
    (leaveToReady s).ctrl = s.ctrl := rfl
@[simp] theorem leaveToReady_resetLine (s : State) :
    (leaveToReady s).resetLine = s.resetLine := rfl
@[simp] theorem leaveToReady_host (s : State) :
    (leaveToReady s).host = s.host := rfl
@[simp] theorem leaveToReady_reads (s : State) :
    (leaveToReady s).reads = s.reads := rfl
@[simp] theorem leaveToReady_delay (s : State) :
    (leaveToReady s).delay = s.delay := rfl
@[simp] theorem leaveToReady_draws (s : State) :
    (leaveToReady s).draws = s.draws := rfl

/-! ### `leaveToFill` -/

@[simp] theorem leaveToFill_cfg (s : State) :
    (leaveToFill s).cfg = s.cfg := rfl
@[simp] theorem leaveToFill_phase (s : State) :
    (leaveToFill s).phase = .fill := rfl
@[simp] theorem leaveToFill_tv (s : State) :
    (leaveToFill s).tv = false := rfl
@[simp] theorem leaveToFill_freq (s : State) :
    (leaveToFill s).freq = tableOf 0#32 := rfl
@[simp] theorem leaveToFill_sym (s : State) :
    (leaveToFill s).sym = [] := rfl
@[simp] theorem leaveToFill_code (s : State) :
    (leaveToFill s).code = tableOf [] := rfl
@[simp] theorem leaveToFill_maxLen (s : State) :
    (leaveToFill s).maxLen = 0#8 := rfl
@[simp] theorem leaveToFill_dpad (s : State) :
    (leaveToFill s).dpad = 0#4 := rfl
@[simp] theorem leaveToFill_dheldV (s : State) :
    (leaveToFill s).dheldV = false := rfl
@[simp] theorem leaveToFill_dheld (s : State) :
    (leaveToFill s).dheld = 0#8 := rfl
@[simp] theorem leaveToFill_cand (s : State) :
    (leaveToFill s).cand = [] := rfl
@[simp] theorem leaveToFill_dcount (s : State) :
    (leaveToFill s).dcount = 0#32 := rfl
@[simp] theorem leaveToFill_out (s : State) :
    (leaveToFill s).out = [] := rfl
@[simp] theorem leaveToFill_pending (s : State) :
    (leaveToFill s).pending = s.pending := rfl
@[simp] theorem leaveToFill_tail (s : State) :
    (leaveToFill s).tail = s.tail := rfl
@[simp] theorem leaveToFill_arg (s : State) :
    (leaveToFill s).arg = s.arg := rfl
@[simp] theorem leaveToFill_result (s : State) :
    (leaveToFill s).result = 0#32 := rfl
@[simp] theorem leaveToFill_err (s : State) :
    (leaveToFill s).err = .none := rfl
@[simp] theorem leaveToFill_errInfo (s : State) :
    (leaveToFill s).errInfo = 0#32 := rfl
@[simp] theorem leaveToFill_ctrl (s : State) :
    (leaveToFill s).ctrl = s.ctrl := rfl
@[simp] theorem leaveToFill_resetLine (s : State) :
    (leaveToFill s).resetLine = s.resetLine := rfl
@[simp] theorem leaveToFill_host (s : State) :
    (leaveToFill s).host = s.host := rfl
@[simp] theorem leaveToFill_reads (s : State) :
    (leaveToFill s).reads = s.reads := rfl
@[simp] theorem leaveToFill_delay (s : State) :
    (leaveToFill s).delay = s.delay := rfl
@[simp] theorem leaveToFill_draws (s : State) :
    (leaveToFill s).draws = s.draws := rfl

/-! ### `finish` -/

@[simp] theorem finish_cfg (s : State) :
    (finish s).cfg = s.cfg := rfl
@[simp] theorem finish_phase (s : State) :
    (finish s).phase = s.phase := rfl
@[simp] theorem finish_tv (s : State) :
    (finish s).tv = s.tv := rfl
@[simp] theorem finish_freq (s : State) :
    (finish s).freq = s.freq := rfl
@[simp] theorem finish_sym (s : State) :
    (finish s).sym = s.sym := rfl
@[simp] theorem finish_code (s : State) :
    (finish s).code = s.code := rfl
@[simp] theorem finish_maxLen (s : State) :
    (finish s).maxLen = s.maxLen := rfl
@[simp] theorem finish_dpad (s : State) :
    (finish s).dpad = s.dpad := rfl
@[simp] theorem finish_dheldV (s : State) :
    (finish s).dheldV = s.dheldV := rfl
@[simp] theorem finish_dheld (s : State) :
    (finish s).dheld = s.dheld := rfl
@[simp] theorem finish_cand (s : State) :
    (finish s).cand = s.cand := rfl
@[simp] theorem finish_dcount (s : State) :
    (finish s).dcount = s.dcount := rfl
@[simp] theorem finish_out (s : State) :
    (finish s).out = s.out := rfl
@[simp] theorem finish_pending (s : State) :
    (finish s).pending = none := rfl
@[simp] theorem finish_tail (s : State) :
    (finish s).tail = true := rfl
@[simp] theorem finish_arg (s : State) :
    (finish s).arg = s.arg := rfl
@[simp] theorem finish_result (s : State) :
    (finish s).result = s.result := rfl
@[simp] theorem finish_err (s : State) :
    (finish s).err = s.err := rfl
@[simp] theorem finish_errInfo (s : State) :
    (finish s).errInfo = s.errInfo := rfl
@[simp] theorem finish_ctrl (s : State) :
    (finish s).ctrl = s.ctrl := rfl
@[simp] theorem finish_resetLine (s : State) :
    (finish s).resetLine = s.resetLine := rfl
@[simp] theorem finish_host (s : State) :
    (finish s).host = s.host := rfl
@[simp] theorem finish_reads (s : State) :
    (finish s).reads = s.reads := rfl
@[simp] theorem finish_delay (s : State) :
    (finish s).delay = Config.freeDelay s.draws := rfl
@[simp] theorem finish_draws (s : State) :
    (finish s).draws = s.draws + 1 := rfl

/-! ### `settle` -/

@[simp] theorem settle_cfg (s : State) :
    (settle s).cfg = s.cfg := rfl
@[simp] theorem settle_phase (s : State) :
    (settle s).phase = s.phase := rfl
@[simp] theorem settle_tv (s : State) :
    (settle s).tv = s.tv := rfl
@[simp] theorem settle_freq (s : State) :
    (settle s).freq = s.freq := rfl
@[simp] theorem settle_sym (s : State) :
    (settle s).sym = s.sym := rfl
@[simp] theorem settle_code (s : State) :
    (settle s).code = s.code := rfl
@[simp] theorem settle_maxLen (s : State) :
    (settle s).maxLen = s.maxLen := rfl
@[simp] theorem settle_dpad (s : State) :
    (settle s).dpad = s.dpad := rfl
@[simp] theorem settle_dheldV (s : State) :
    (settle s).dheldV = s.dheldV := rfl
@[simp] theorem settle_dheld (s : State) :
    (settle s).dheld = s.dheld := rfl
@[simp] theorem settle_cand (s : State) :
    (settle s).cand = s.cand := rfl
@[simp] theorem settle_dcount (s : State) :
    (settle s).dcount = s.dcount := rfl
@[simp] theorem settle_out (s : State) :
    (settle s).out = s.out := rfl
@[simp] theorem settle_pending (s : State) :
    (settle s).pending = s.pending := rfl
@[simp] theorem settle_tail (s : State) :
    (settle s).tail = false := rfl
@[simp] theorem settle_arg (s : State) :
    (settle s).arg = s.arg := rfl
@[simp] theorem settle_result (s : State) :
    (settle s).result = s.result := rfl
@[simp] theorem settle_err (s : State) :
    (settle s).err = s.err := rfl
@[simp] theorem settle_errInfo (s : State) :
    (settle s).errInfo = s.errInfo := rfl
@[simp] theorem settle_ctrl (s : State) :
    (settle s).ctrl = s.ctrl := rfl
@[simp] theorem settle_resetLine (s : State) :
    (settle s).resetLine = s.resetLine := rfl
@[simp] theorem settle_host (s : State) :
    (settle s).host = s.host := rfl
@[simp] theorem settle_reads (s : State) :
    (settle s).reads = s.reads := rfl
@[simp] theorem settle_delay (s : State) :
    (settle s).delay = s.delay := rfl
@[simp] theorem settle_draws (s : State) :
    (settle s).draws = s.draws := rfl

/-! ### `writeCmd` -/

@[simp] theorem writeCmd_cfg (w : Word) (s : State) :
    (writeCmd w s).cfg = s.cfg := rfl
@[simp] theorem writeCmd_phase (w : Word) (s : State) :
    (writeCmd w s).phase = s.phase := rfl
@[simp] theorem writeCmd_tv (w : Word) (s : State) :
    (writeCmd w s).tv = s.tv := rfl
@[simp] theorem writeCmd_freq (w : Word) (s : State) :
    (writeCmd w s).freq = s.freq := rfl
@[simp] theorem writeCmd_sym (w : Word) (s : State) :
    (writeCmd w s).sym = s.sym := rfl
@[simp] theorem writeCmd_code (w : Word) (s : State) :
    (writeCmd w s).code = s.code := rfl
@[simp] theorem writeCmd_maxLen (w : Word) (s : State) :
    (writeCmd w s).maxLen = s.maxLen := rfl
@[simp] theorem writeCmd_dpad (w : Word) (s : State) :
    (writeCmd w s).dpad = s.dpad := rfl
@[simp] theorem writeCmd_dheldV (w : Word) (s : State) :
    (writeCmd w s).dheldV = s.dheldV := rfl
@[simp] theorem writeCmd_dheld (w : Word) (s : State) :
    (writeCmd w s).dheld = s.dheld := rfl
@[simp] theorem writeCmd_cand (w : Word) (s : State) :
    (writeCmd w s).cand = s.cand := rfl
@[simp] theorem writeCmd_dcount (w : Word) (s : State) :
    (writeCmd w s).dcount = s.dcount := rfl
@[simp] theorem writeCmd_out (w : Word) (s : State) :
    (writeCmd w s).out = s.out := rfl
@[simp] theorem writeCmd_pending (w : Word) (s : State) :
    (writeCmd w s).pending = some ⟨w, s.arg⟩ := rfl
@[simp] theorem writeCmd_tail (w : Word) (s : State) :
    (writeCmd w s).tail = s.tail := rfl
@[simp] theorem writeCmd_arg (w : Word) (s : State) :
    (writeCmd w s).arg = s.arg := rfl
@[simp] theorem writeCmd_result (w : Word) (s : State) :
    (writeCmd w s).result = s.result := rfl
@[simp] theorem writeCmd_err (w : Word) (s : State) :
    (writeCmd w s).err = s.err := rfl
@[simp] theorem writeCmd_errInfo (w : Word) (s : State) :
    (writeCmd w s).errInfo = s.errInfo := rfl
@[simp] theorem writeCmd_ctrl (w : Word) (s : State) :
    (writeCmd w s).ctrl = s.ctrl := rfl
@[simp] theorem writeCmd_resetLine (w : Word) (s : State) :
    (writeCmd w s).resetLine = s.resetLine := rfl
@[simp] theorem writeCmd_host (w : Word) (s : State) :
    (writeCmd w s).host = s.host := rfl
@[simp] theorem writeCmd_reads (w : Word) (s : State) :
    (writeCmd w s).reads = s.reads := rfl
@[simp] theorem writeCmd_delay (w : Word) (s : State) :
    (writeCmd w s).delay = Config.freeDelay s.draws := rfl
@[simp] theorem writeCmd_draws (w : Word) (s : State) :
    (writeCmd w s).draws = s.draws + 1 := rfl

/-! ### `drawn` -/

@[simp] theorem drawn_cfg (s : State) :
    (drawn s).cfg = s.cfg := rfl
@[simp] theorem drawn_phase (s : State) :
    (drawn s).phase = s.phase := rfl
@[simp] theorem drawn_tv (s : State) :
    (drawn s).tv = s.tv := rfl
@[simp] theorem drawn_freq (s : State) :
    (drawn s).freq = s.freq := rfl
@[simp] theorem drawn_sym (s : State) :
    (drawn s).sym = s.sym := rfl
@[simp] theorem drawn_code (s : State) :
    (drawn s).code = s.code := rfl
@[simp] theorem drawn_maxLen (s : State) :
    (drawn s).maxLen = s.maxLen := rfl
@[simp] theorem drawn_dpad (s : State) :
    (drawn s).dpad = s.dpad := rfl
@[simp] theorem drawn_dheldV (s : State) :
    (drawn s).dheldV = s.dheldV := rfl
@[simp] theorem drawn_dheld (s : State) :
    (drawn s).dheld = s.dheld := rfl
@[simp] theorem drawn_cand (s : State) :
    (drawn s).cand = s.cand := rfl
@[simp] theorem drawn_dcount (s : State) :
    (drawn s).dcount = s.dcount := rfl
@[simp] theorem drawn_out (s : State) :
    (drawn s).out = s.out := rfl
@[simp] theorem drawn_pending (s : State) :
    (drawn s).pending = s.pending := rfl
@[simp] theorem drawn_tail (s : State) :
    (drawn s).tail = s.tail := rfl
@[simp] theorem drawn_arg (s : State) :
    (drawn s).arg = s.arg := rfl
@[simp] theorem drawn_result (s : State) :
    (drawn s).result = s.result := rfl
@[simp] theorem drawn_err (s : State) :
    (drawn s).err = s.err := rfl
@[simp] theorem drawn_errInfo (s : State) :
    (drawn s).errInfo = s.errInfo := rfl
@[simp] theorem drawn_ctrl (s : State) :
    (drawn s).ctrl = s.ctrl := rfl
@[simp] theorem drawn_resetLine (s : State) :
    (drawn s).resetLine = s.resetLine := rfl
@[simp] theorem drawn_host (s : State) :
    (drawn s).host = s.host := rfl
@[simp] theorem drawn_reads (s : State) :
    (drawn s).reads = s.reads := rfl
@[simp] theorem drawn_delay (s : State) :
    (drawn s).delay = s.delay := rfl
@[simp] theorem drawn_draws (s : State) :
    (drawn s).draws = s.draws + 1 := rfl

/-! ### `placeCommand` -/

@[simp] theorem placeCommand_cfg (w : Word) (s : State) :
    (placeCommand w s).cfg = s.cfg := rfl
@[simp] theorem placeCommand_phase (w : Word) (s : State) :
    (placeCommand w s).phase = s.phase := rfl
@[simp] theorem placeCommand_tv (w : Word) (s : State) :
    (placeCommand w s).tv = s.tv := rfl
@[simp] theorem placeCommand_freq (w : Word) (s : State) :
    (placeCommand w s).freq = s.freq := rfl
@[simp] theorem placeCommand_sym (w : Word) (s : State) :
    (placeCommand w s).sym = s.sym := rfl
@[simp] theorem placeCommand_code (w : Word) (s : State) :
    (placeCommand w s).code = s.code := rfl
@[simp] theorem placeCommand_maxLen (w : Word) (s : State) :
    (placeCommand w s).maxLen = s.maxLen := rfl
@[simp] theorem placeCommand_dpad (w : Word) (s : State) :
    (placeCommand w s).dpad = s.dpad := rfl
@[simp] theorem placeCommand_dheldV (w : Word) (s : State) :
    (placeCommand w s).dheldV = s.dheldV := rfl
@[simp] theorem placeCommand_dheld (w : Word) (s : State) :
    (placeCommand w s).dheld = s.dheld := rfl
@[simp] theorem placeCommand_cand (w : Word) (s : State) :
    (placeCommand w s).cand = s.cand := rfl
@[simp] theorem placeCommand_dcount (w : Word) (s : State) :
    (placeCommand w s).dcount = s.dcount := rfl
@[simp] theorem placeCommand_out (w : Word) (s : State) :
    (placeCommand w s).out = s.out := rfl
@[simp] theorem placeCommand_pending (w : Word) (s : State) :
    (placeCommand w s).pending = some ⟨w, s.arg⟩ := rfl
@[simp] theorem placeCommand_tail (w : Word) (s : State) :
    (placeCommand w s).tail = s.tail := rfl
@[simp] theorem placeCommand_arg (w : Word) (s : State) :
    (placeCommand w s).arg = s.arg := rfl
@[simp] theorem placeCommand_result (w : Word) (s : State) :
    (placeCommand w s).result = s.result := rfl
@[simp] theorem placeCommand_err (w : Word) (s : State) :
    (placeCommand w s).err = s.err := rfl
@[simp] theorem placeCommand_errInfo (w : Word) (s : State) :
    (placeCommand w s).errInfo = s.errInfo := rfl
@[simp] theorem placeCommand_ctrl (w : Word) (s : State) :
    (placeCommand w s).ctrl = s.ctrl := rfl
@[simp] theorem placeCommand_resetLine (w : Word) (s : State) :
    (placeCommand w s).resetLine = false := rfl
@[simp] theorem placeCommand_host (w : Word) (s : State) :
    (placeCommand w s).host = s.host := rfl
@[simp] theorem placeCommand_reads (w : Word) (s : State) :
    (placeCommand w s).reads = s.reads := rfl
@[simp] theorem placeCommand_delay (w : Word) (s : State) :
    (placeCommand w s).delay = 0 := rfl
@[simp] theorem placeCommand_draws (w : Word) (s : State) :
    (placeCommand w s).draws = s.draws := rfl

/-! ### `resetBlock` -/

@[simp] theorem resetBlock_cfg (s : State) :
    (resetBlock s).cfg = s.cfg := rfl
@[simp] theorem resetBlock_phase (s : State) :
    (resetBlock s).phase = .fill := rfl
@[simp] theorem resetBlock_tv (s : State) :
    (resetBlock s).tv = false := rfl
@[simp] theorem resetBlock_freq (s : State) :
    (resetBlock s).freq = tableOf 0#32 := rfl
@[simp] theorem resetBlock_sym (s : State) :
    (resetBlock s).sym = [] := rfl
@[simp] theorem resetBlock_code (s : State) :
    (resetBlock s).code = tableOf [] := rfl
@[simp] theorem resetBlock_maxLen (s : State) :
    (resetBlock s).maxLen = 0#8 := rfl
@[simp] theorem resetBlock_dpad (s : State) :
    (resetBlock s).dpad = 0#4 := rfl
@[simp] theorem resetBlock_dheldV (s : State) :
    (resetBlock s).dheldV = false := rfl
@[simp] theorem resetBlock_dheld (s : State) :
    (resetBlock s).dheld = 0#8 := rfl
@[simp] theorem resetBlock_cand (s : State) :
    (resetBlock s).cand = [] := rfl
@[simp] theorem resetBlock_dcount (s : State) :
    (resetBlock s).dcount = 0#32 := rfl
@[simp] theorem resetBlock_out (s : State) :
    (resetBlock s).out = [] := rfl
@[simp] theorem resetBlock_pending (s : State) :
    (resetBlock s).pending = none := rfl
@[simp] theorem resetBlock_tail (s : State) :
    (resetBlock s).tail = false := rfl
@[simp] theorem resetBlock_arg (s : State) :
    (resetBlock s).arg = 0#32 := rfl
@[simp] theorem resetBlock_result (s : State) :
    (resetBlock s).result = 0#32 := rfl
@[simp] theorem resetBlock_err (s : State) :
    (resetBlock s).err = .none := rfl
@[simp] theorem resetBlock_errInfo (s : State) :
    (resetBlock s).errInfo = 0#32 := rfl
@[simp] theorem resetBlock_ctrl (s : State) :
    (resetBlock s).ctrl = 0#2 := rfl
@[simp] theorem resetBlock_resetLine (s : State) :
    (resetBlock s).resetLine = s.resetLine := rfl
@[simp] theorem resetBlock_host (s : State) :
    (resetBlock s).host = s.host := rfl
@[simp] theorem resetBlock_reads (s : State) :
    (resetBlock s).reads = s.reads := rfl
@[simp] theorem resetBlock_delay (s : State) :
    (resetBlock s).delay = 0 := rfl
@[simp] theorem resetBlock_draws (s : State) :
    (resetBlock s).draws = s.draws := rfl

end Sys2Proof.Machine
end

