-- ==== Sys2Proof/Laws/Table.lean ====
section
/-! SUPPORT. The tables: read after write, the symbols in order, and searching the entries. -/

namespace Sys2Proof.Machine

variable {α : Type}

@[simp] theorem tableGet_tableOf (a : α) (x : Byte) : tableGet (tableOf a) x = a := by
  simp [tableGet, tableOf]

@[simp] theorem tableGet_set_self (t : Table α) (x : Byte) (a : α) :
    tableGet (tableSet t x a) x = a := by
  simp [tableGet, tableSet]

theorem tableGet_set_ne (t : Table α) {x y : Byte} (a : α) (h : y ≠ x) :
    tableGet (tableSet t x a) y = tableGet t y := by
  have h' : x.toNat ≠ y.toNat := fun e => h (BitVec.eq_of_toNat_eq e.symm)
  simp [tableGet, tableSet, h']

theorem tableGet_set (t : Table α) (x y : Byte) (a : α) :
    tableGet (tableSet t x a) y = if y = x then a else tableGet t y := by
  by_cases h : y = x
  · simp [h]
  · simp [h, tableGet_set_ne t a h]

/-- Two tables with the same entries are the same. -/
theorem table_ext {t u : Table α} (h : ∀ x, tableGet t x = tableGet u x) : t = u := by
  apply Vector.ext
  intro i hi
  have := h (BitVec.ofNat 8 i)
  simpa [tableGet, Nat.mod_eq_of_lt hi] using this

/-! ### The symbols in ascending order -/

theorem mem_allSymbols (x : Byte) : x ∈ allSymbols := by
  refine List.mem_map.2 ⟨x.toNat, List.mem_range.2 x.isLt, ?_⟩
  simp

theorem allSymbols_nodup : allSymbols.Nodup := by
  refine List.Nodup.map_on ?_ List.nodup_range
  intro a ha b hb h
  have ha' := List.mem_range.1 ha
  have hb' := List.mem_range.1 hb
  have := congrArg BitVec.toNat h
  simpa [Nat.mod_eq_of_lt ha', Nat.mod_eq_of_lt hb'] using this

@[simp] theorem allSymbols_length : allSymbols.length = 256 := by simp [allSymbols]

/-- The entries are the symbols with what `tableGet` reads for them. -/
theorem tableEntries_eq (t : Table α) : tableEntries t = allSymbols.map fun x => (x, tableGet t x) := by
  apply List.ext_getElem
  · simp [tableEntries]
  · intro i h₁ h₂
    have hi : i < 256 := by simpa [tableEntries] using h₁
    simp [tableEntries, allSymbols, tableGet, Nat.mod_eq_of_lt hi]

theorem mem_tableEntries {t : Table α} {e : Byte × α} :
    e ∈ tableEntries t ↔ tableGet t e.1 = e.2 := by
  rw [tableEntries_eq, List.mem_map]
  constructor
  · rintro ⟨x, -, rfl⟩; rfl
  · intro h; exact ⟨e.1, mem_allSymbols _, by simp [h]⟩

/-- Filtering the entries by their value is filtering the symbols. -/
theorem tableEntries_filter (t : Table α) (p : α → Bool) :
    (tableEntries t).filter (fun e => p e.2) =
      (allSymbols.filter fun x => p (tableGet t x)).map fun x => (x, tableGet t x) := by
  rw [tableEntries_eq, List.filter_map]; rfl

/-- The values of the entries are the entries of the vector. -/
theorem toList_eq_map (t : Table α) : t.toList = allSymbols.map fun x => tableGet t x := by
  have h := congrArg (List.map Prod.snd) (tableEntries_eq t)
  simpa [tableEntries, List.map_snd_zip, Function.comp_def] using h

end Sys2Proof.Machine
end

