-- ==== Sys2Proof/Laws/Tree.lean ====
section
/-! SUPPORT. The code tree: what the queue and the merge loop keep, the shape of the tree `buildTree`
gives, and the codes derived from it as the paths of its leaves. -/

namespace Sys2Proof.Machine

/-! ### The counted symbols -/

/-- The symbols with a non-zero count, without their counts. -/
def countedKeys (freq : Table Word) : List Byte :=
  allSymbols.filter fun x => tableGet freq x != 0#32

theorem countedSymbols_eq (freq : Table Word) :
    countedSymbols freq = (countedKeys freq).map fun x => (x, tableGet freq x) :=
  tableEntries_filter freq fun v => v != 0#32

@[simp] theorem countedSymbols_length (freq : Table Word) :
    (countedSymbols freq).length = (countedKeys freq).length := by
  rw [countedSymbols_eq, List.length_map]

theorem mem_countedKeys {freq : Table Word} {x : Byte} :
    x ∈ countedKeys freq ↔ tableGet freq x ≠ 0#32 := by
  simp [countedKeys, mem_allSymbols]

theorem countedKeys_nodup (freq : Table Word) : (countedKeys freq).Nodup :=
  allSymbols_nodup.filter _

theorem countedKeys_length_le (freq : Table Word) : (countedKeys freq).length ≤ 256 :=
  (List.length_filter_le _ _).trans (by simp)

theorem countedSymbols_eq_nil {freq : Table Word} :
    countedSymbols freq = [] ↔ ∀ x, tableGet freq x = 0#32 := by
  rw [countedSymbols_eq, List.map_eq_nil_iff, List.eq_nil_iff_forall_not_mem]
  constructor
  · intro h x
    by_contra hx
    exact h x (mem_countedKeys.2 hx)
  · intro h x hx
    exact mem_countedKeys.1 hx (h x)

/-! ### Leaves and paths -/

/-- The symbols of the leaves, left to right. -/
def TreeNode.leaves : TreeNode → List Byte
  | .leaf x _ _ => [x]
  | .internal _ _ l r => l.leaves ++ r.leaves

/-- Each leaf's symbol with its path from a node reached by `p` ("0" left, "1" right). -/
def TreeNode.paths : TreeNode → Bits → List (Byte × Bits)
  | .leaf x _ _, p => [(x, p)]
  | .internal _ _ l r, p => l.paths (p ++ [false]) ++ r.paths (p ++ [true])

theorem TreeNode.paths_fst (n : TreeNode) (p : Bits) : (n.paths p).map Prod.fst = n.leaves := by
  induction n generalizing p with
  | leaf => rfl
  | internal w s l r ihl ihr => simp [TreeNode.paths, TreeNode.leaves, ihl, ihr]

theorem TreeNode.leaves_ne_nil (n : TreeNode) : n.leaves ≠ [] := by
  induction n with
  | leaf => simp [TreeNode.leaves]
  | internal w s l r ihl ihr => simp [TreeNode.leaves, ihl]

/-- A path extends the path of the node it starts from. -/
theorem TreeNode.prefix_of_mem_paths {n : TreeNode} {p c : Bits} {x : Byte}
    (h : (x, c) ∈ n.paths p) : p <+: c := by
  induction n generalizing p with
  | leaf => simp [TreeNode.paths] at h; simp [h]
  | internal w s l r ihl ihr =>
    rcases List.mem_append.1 h with h | h
    · exact (List.prefix_append p [false]).trans (ihl h)
    · exact (List.prefix_append p [true]).trans (ihr h)

/-- A path is at most as much longer than its start as the node has further leaves (R158). -/
theorem TreeNode.length_of_mem_paths {n : TreeNode} {p c : Bits} {x : Byte}
    (h : (x, c) ∈ n.paths p) : c.length + 1 ≤ p.length + n.leaves.length := by
  induction n generalizing p with
  | leaf => simp [TreeNode.paths] at h; simp [h, TreeNode.leaves]
  | internal w s l r ihl ihr =>
    have hl := List.length_pos_of_ne_nil l.leaves_ne_nil
    have hr := List.length_pos_of_ne_nil r.leaves_ne_nil
    simp only [TreeNode.leaves, List.length_append]
    rcases List.mem_append.1 h with h | h
    · have := ihl h; simp at this; omega
    · have := ihr h; simp at this; omega

/-- Two different leaves' paths are not prefixes of each other (R174). -/
theorem TreeNode.paths_not_prefix {n : TreeNode} {p c d : Bits} {x y : Byte} (hn : n.leaves.Nodup)
    (hx : (x, c) ∈ n.paths p) (hy : (y, d) ∈ n.paths p) (hxy : x ≠ y) : ¬ c <+: d := by
  induction n generalizing p with
  | leaf z _ _ =>
    simp [TreeNode.paths] at hx hy
    exact absurd (hx.1.trans hy.1.symm) hxy
  | internal w s l r ihl ihr =>
    have hnl : l.leaves.Nodup := (List.nodup_append.1 hn).1
    have hnr : r.leaves.Nodup := (List.nodup_append.1 hn).2.1
    have branch : ∀ {b b' : Bool} {e f : Bits}, b ≠ b' → p ++ [b] <+: e → p ++ [b'] <+: f →
        ¬ e <+: f := by
      intro b b' e f hb he hf hef
      have h1 : p ++ [b] <+: f := he.trans hef
      have h2 := (List.prefix_of_prefix_length_le h1 hf (by simp)).eq_of_length (by simp)
      simp at h2
      exact hb h2
    rcases List.mem_append.1 hx with hx | hx <;> rcases List.mem_append.1 hy with hy | hy
    · exact ihl hnl hx hy
    · exact branch (by simp) (prefix_of_mem_paths hx) (prefix_of_mem_paths hy)
    · exact branch (by simp) (prefix_of_mem_paths hx) (prefix_of_mem_paths hy)
    · exact ihr hnr hx hy

/-! ### The derived table -/

/-- A symbol that is no leaf keeps the entry it had. -/
theorem tableGet_deriveCodes_of_not_mem {n : TreeNode} {p : Bits} {t : Table Bits} {x : Byte}
    (h : x ∉ n.leaves) : tableGet (deriveCodes n p t) x = tableGet t x := by
  induction n generalizing p t with
  | leaf y _ _ =>
    simp [TreeNode.leaves] at h
    exact tableGet_set_ne t p h
  | internal w s l r ihl ihr =>
    simp [TreeNode.leaves] at h
    simp [deriveCodes, ihr h.2, ihl h.1]

/-- A leaf's entry is its path (R170). -/
theorem tableGet_deriveCodes_of_mem {n : TreeNode} {p c : Bits} {t : Table Bits} {x : Byte}
    (hn : n.leaves.Nodup) (h : (x, c) ∈ n.paths p) : tableGet (deriveCodes n p t) x = c := by
  induction n generalizing p t with
  | leaf y _ _ =>
    simp [TreeNode.paths] at h
    simp [deriveCodes, h]
  | internal w s l r ihl ihr =>
    have hnl : l.leaves.Nodup := (List.nodup_append.1 hn).1
    have hnr : r.leaves.Nodup := (List.nodup_append.1 hn).2.1
    rcases List.mem_append.1 h with h | h
    · have hx : x ∈ l.leaves := by
        rw [← l.paths_fst (p ++ [false])]; exact List.mem_map_of_mem h
      have hxr : x ∉ r.leaves := fun hr => (List.nodup_append.1 hn).2.2 x hx x hr rfl
      simp [deriveCodes, tableGet_deriveCodes_of_not_mem hxr, ihl hnl h]
    · simp [deriveCodes, ihr hnr h]

/-- A leaf has a path. -/
theorem TreeNode.exists_path {n : TreeNode} (p : Bits) {x : Byte} (h : x ∈ n.leaves) :
    ∃ c, (x, c) ∈ n.paths p := by
  rw [← n.paths_fst p] at h
  obtain ⟨e, he, rfl⟩ := List.mem_map.1 h
  exact ⟨e.2, he⟩

/-! ### The queue -/

theorem queueInsert_perm (z : TreeNode) (q : List TreeNode) : (queueInsert z q).Perm (z :: q) := by
  induction q with
  | nil => exact .refl _
  | cons x q ih =>
    simp only [queueInsert]
    split
    · exact .refl _
    · exact (ih.cons x).trans (.swap z x q)

theorem foldl_queueInsert_perm (zs q : List TreeNode) :
    (zs.foldl (fun q z => queueInsert z q) q).Perm (zs ++ q) := by
  induction zs generalizing q with
  | nil => exact .refl _
  | cons z zs ih =>
    refine (ih _).trans ?_
    exact (List.Perm.append_left zs (queueInsert_perm z q)).trans List.perm_middle

theorem leafQueue_perm (l : List (Byte × Word)) : (leafQueue l).Perm (leafNodes l) := by
  simpa [leafQueue] using foldl_queueInsert_perm (leafNodes l) []

@[simp] theorem leafNodes_length (l : List (Byte × Word)) : (leafNodes l).length = l.length := by
  simp [leafNodes]

theorem leafNodes_leaves (l : List (Byte × Word)) :
    (leafNodes l).flatMap TreeNode.leaves = l.map Prod.fst := by
  have h : ∀ (l : List (Byte × Word)) (k : Nat),
      ((l.zipIdx k).map fun e => TreeNode.leaf e.1.1 (e.1.2.setWidth 40) e.2).flatMap
        TreeNode.leaves = l.map Prod.fst := by
    intro l
    induction l with
    | nil => intro k; rfl
    | cons e l ih => intro k; simp [List.zipIdx_cons, TreeNode.leaves, ih]
  exact h l 0

/-! ### The merge loop -/

/-- The loop keeps the leaves of the queue. -/
theorem mergeLoop_leaves (fuel seq : Nat) (q : List TreeNode) :
    ((mergeLoop fuel seq q).flatMap TreeNode.leaves).Perm (q.flatMap TreeNode.leaves) := by
  induction fuel generalizing seq q with
  | zero => exact .refl _
  | succ fuel ih =>
    match q with
    | [] => exact .refl _
    | [_] => exact .refl _
    | x :: y :: q =>
      refine (ih _ _).trans ?_
      refine ((queueInsert_perm _ q).flatMap_right _).trans ?_
      simp [mergeNodes, TreeNode.leaves]

/-- With enough fuel the loop leaves exactly one node (R155). -/
theorem mergeLoop_length (fuel seq : Nat) (q : List TreeNode) (h : q ≠ [])
    (hf : q.length ≤ fuel + 1) : (mergeLoop fuel seq q).length = 1 := by
  induction fuel generalizing seq q with
  | zero =>
    have := List.length_pos_of_ne_nil h
    simp only [mergeLoop]; omega
  | succ fuel ih =>
    match q, h with
    | [_], _ => rfl
    | x :: y :: q, _ =>
      have hl := (queueInsert_perm (mergeNodes seq x y) q).length_eq
      refine ih _ _ ?_ ?_
      · intro e; rw [e] at hl; simp at hl
      · simp at hl hf; omega

/-- `buildTree` of a non-empty list gives a tree whose leaves are its symbols (R155). -/
theorem buildTree_spec {l : List (Byte × Word)} (h : l ≠ []) :
    ∃ root, buildTree l = some root ∧ root.leaves.Perm (l.map Prod.fst) := by
  have hq := (leafQueue_perm l).length_eq
  rw [leafNodes_length] at hq
  have hne : leafQueue l ≠ [] := by
    intro e; rw [e] at hq; exact h (List.eq_nil_of_length_eq_zero hq.symm)
  have hlen := mergeLoop_length l.length l.length (leafQueue l) hne (by omega)
  obtain ⟨root, hroot⟩ := List.length_eq_one_iff.1 hlen
  refine ⟨root, by simp [buildTree, hroot], ?_⟩
  have hp := mergeLoop_leaves l.length l.length (leafQueue l)
  rw [hroot] at hp
  simp only [List.flatMap_cons, List.flatMap_nil, List.append_nil] at hp
  refine hp.trans (((leafQueue_perm l).flatMap_right _).trans ?_)
  rw [leafNodes_leaves]

/-- An internal root has two branches; a leaf root comes from one symbol only. -/
theorem buildTree_internal {l : List (Byte × Word)} (h : 2 ≤ l.length) {root : TreeNode}
    (hr : buildTree l = some root) : ∃ w s a b, root = .internal w s a b := by
  obtain ⟨root', hr', hp⟩ := buildTree_spec (l := l) (by intro e; simp [e] at h)
  obtain rfl : root = root' := Option.some.inj (hr.symm.trans hr')
  cases root with
  | leaf => have := hp.length_eq; simp [TreeNode.leaves] at this; omega
  | internal w s a b => exact ⟨w, s, a, b, rfl⟩

/-! ### The code table as a whole -/

/-- The two shapes of a non-empty code table: the single symbol's "0" (R156), or the paths of a tree
whose leaves are the counted symbols. -/
theorem codeTable_cases {freq : Table Word} (h : countedKeys freq ≠ []) :
    (∃ x, countedKeys freq = [x] ∧ codeTable freq = tableSet (tableOf []) x [false]) ∨
    (2 ≤ (countedKeys freq).length ∧ ∃ w s a b,
      (TreeNode.internal w s a b).leaves.Perm (countedKeys freq) ∧
      codeTable freq = deriveCodes (.internal w s a b) [] (tableOf [])) := by
  have hfst : (countedSymbols freq).map Prod.fst = countedKeys freq := by
    rw [countedSymbols_eq]; simp [Function.comp_def]
  rcases hk : countedKeys freq with _ | ⟨x, _ | ⟨y, ks⟩⟩
  · exact absurd hk h
  · refine .inl ⟨x, rfl, ?_⟩
    simp [codeTable, countedSymbols_eq, hk]
  · refine .inr ⟨by simp, ?_⟩
    have hlen : 2 ≤ (countedSymbols freq).length := by simp [hk]
    obtain ⟨root, hroot, hp⟩ := buildTree_spec (l := countedSymbols freq)
      (by intro e; simp [e] at hlen)
    obtain ⟨w, s, a, b, rfl⟩ := buildTree_internal hlen hroot
    refine ⟨w, s, a, b, by rw [← hk, ← hfst]; exact hp, ?_⟩
    have hform : countedSymbols freq =
        (x, tableGet freq x) :: (y, tableGet freq y) ::
          ks.map fun z => (z, tableGet freq z) := by
      rw [countedSymbols_eq, hk]; rfl
    rw [hform] at hroot
    simp [codeTable, hform, hroot]

/-- A symbol without a count has no code (R172). -/
theorem codeTable_uncounted {freq : Table Word} {x : Byte} (h : x ∉ countedKeys freq) :
    tableGet (codeTable freq) x = [] := by
  by_cases hk : countedKeys freq = []
  · have : countedSymbols freq = [] := by rw [countedSymbols_eq, hk]; rfl
    simp [codeTable, this]
  · rcases codeTable_cases hk with ⟨y, hy, ht⟩ | ⟨_, w, s, a, b, hp, ht⟩
    · have hxy : x ≠ y := by rintro rfl; simp [hy] at h
      simp [ht, tableGet_set_ne _ _ hxy]
    · rw [ht, tableGet_deriveCodes_of_not_mem (fun hm => h (hp.mem_iff.1 hm))]; simp

/-- A counted symbol has a code of from 1 to 255 bits, at most n − 1 when n ≥ 2 (R158, R171). -/
theorem codeTable_counted {freq : Table Word} {x : Byte} (h : x ∈ countedKeys freq) :
    1 ≤ (tableGet (codeTable freq) x).length ∧
    (tableGet (codeTable freq) x).length ≤ max 1 ((countedKeys freq).length - 1) := by
  rcases codeTable_cases (List.ne_nil_of_mem h) with ⟨y, hy, ht⟩ | ⟨hn, w, s, a, b, hp, ht⟩
  · have hxy : x = y := by simpa [hy] using h
    simp [ht, hxy]
  · have hnd : (TreeNode.internal w s a b).leaves.Nodup :=
      hp.nodup_iff.2 (countedKeys_nodup freq)
    obtain ⟨c, hc⟩ := TreeNode.exists_path [] (hp.mem_iff.2 h)
    rw [ht, tableGet_deriveCodes_of_mem hnd hc]
    have hle := TreeNode.length_of_mem_paths hc
    rw [hp.length_eq] at hle
    constructor
    · rcases List.mem_append.1 hc with hc | hc <;>
        have := (TreeNode.prefix_of_mem_paths hc).length_le <;> simpa using this
    · simp at hle; omega

theorem codeTable_length_le (freq : Table Word) (x : Byte) :
    (tableGet (codeTable freq) x).length ≤ 255 := by
  by_cases h : x ∈ countedKeys freq
  · have := (codeTable_counted h).2
    have := countedKeys_length_le freq
    omega
  · simp [codeTable_uncounted h]

/-- The longest code bounds every code, and is one of them in a non-empty table. -/
theorem length_le_maxCodeLen (t : Table Bits) (x : Byte) : (tableGet t x).length ≤ maxCodeLen t := by
  have h : ∀ (l : List Bits) (m : Nat), m ≤ l.foldl (fun m c => max m c.length) m ∧
      ∀ c ∈ l, c.length ≤ l.foldl (fun m c => max m c.length) m := by
    intro l
    induction l with
    | nil => intro m; simp
    | cons d l ih =>
      intro m
      obtain ⟨h1, h2⟩ := ih (max m d.length)
      refine ⟨le_trans (le_max_left _ _) h1, ?_⟩
      intro c hc
      rcases List.mem_cons.1 hc with rfl | hc
      · exact le_trans (le_max_right _ _) h1
      · exact h2 c hc
  refine (h t.toList 0).2 _ ?_
  rw [toList_eq_map]
  exact List.mem_map_of_mem (mem_allSymbols x)

theorem exists_length_eq_maxCodeLen (t : Table Bits) :
    ∃ x, (tableGet t x).length = maxCodeLen t := by
  have h : ∀ (l : List Bits) (m : Nat), l.foldl (fun m c => max m c.length) m = m ∨
      ∃ c ∈ l, c.length = l.foldl (fun m c => max m c.length) m := by
    intro l
    induction l with
    | nil => intro m; simp
    | cons d l ih =>
      intro m
      simp only [List.foldl_cons]
      rcases ih (max m d.length) with h | ⟨c, hc, h⟩
      · rcases max_choice m d.length with hm | hm
        · left; rw [h, hm]
        · right; exact ⟨d, List.mem_cons_self .., by rw [h, hm]⟩
      · right; exact ⟨c, List.mem_cons_of_mem _ hc, h⟩
  rcases h t.toList 0 with h0 | ⟨c, hc, h0⟩
  · refine ⟨0#8, ?_⟩
    have h1 := length_le_maxCodeLen t 0#8
    have h2 : maxCodeLen t = 0 := h0
    omega
  · rw [toList_eq_map] at hc
    obtain ⟨x, _, rfl⟩ := List.mem_map.1 hc
    exact ⟨x, h0⟩

/-- MAXLEN after BUILD is from 1 to 255 (R173). -/
theorem maxCodeLen_codeTable {freq : Table Word} (h : countedKeys freq ≠ []) :
    1 ≤ maxCodeLen (codeTable freq) ∧ maxCodeLen (codeTable freq) ≤ 255 := by
  obtain ⟨x, hx⟩ := List.exists_mem_of_ne_nil _ h
  constructor
  · exact (codeTable_counted hx).1.trans (length_le_maxCodeLen _ _)
  · obtain ⟨y, hy⟩ := exists_length_eq_maxCodeLen (codeTable freq)
    rw [← hy]; exact codeTable_length_le freq y

end Sys2Proof.Machine
end

