-- ==== Sys2Proof/Laws/Ops.lean ====
section
/-! SUPPORT. What the shared operations can do: the phase gate, the matcher and a fed bit string, the
packed bytes, and the reads and writes of the window. -/

namespace Sys2Proof.Machine

/-! ### The phase gate (R240) -/

/-- The gate lets a command act, ignores it, or raises SEQUENCE. -/
theorem gated_cases (i : Instr) (rule : State → State) (s : State) :
    (s.phase = .error ∧ actsInError i s = true ∧ gated i rule s = rule s) ∨
    (s.phase = .error ∧ actsInError i s = false ∧ gated i rule s = s) ∨
    (s.phase ≠ .error ∧ actsIn i s.phase = true ∧ gated i rule s = rule s) ∨
    (s.phase ≠ .error ∧ actsIn i s.phase = false ∧
      gated i rule s = raise i.opcode .sequence .none 0#8 s) := by
  unfold gated
  by_cases h : s.phase = .error
  · cases actsInError i s <;> simp [h]
  · cases actsIn i s.phase <;> simp [h]

theorem gated_acts {i : Instr} {rule : State → State} {s : State} (h : s.phase ≠ .error)
    (ha : actsIn i s.phase = true) : gated i rule s = rule s := by
  simp [gated, h, ha]

theorem gated_sequence {i : Instr} {rule : State → State} {s : State} (h : s.phase ≠ .error)
    (ha : actsIn i s.phase = false) :
    gated i rule s = raise i.opcode .sequence .none 0#8 s := by
  simp [gated, h, ha]

theorem gated_ignored {i : Instr} {rule : State → State} {s : State} (h : s.phase = .error)
    (ha : actsInError i s = false) : gated i rule s = s := by
  simp [gated, h, ha]

/-- A property of the state that the command's rule, where it acts, and SEQUENCE establish holds
after the gate. -/
theorem gated_induction {P : State → Prop} {i : Instr} {rule : State → State} {s : State}
    (herr : s.phase = .error → actsInError i s = true → P (rule s))
    (hign : s.phase = .error → P s)
    (hact : s.phase ≠ .error → actsIn i s.phase = true → P (rule s))
    (hseq : s.phase ≠ .error → P (raise i.opcode .sequence .none 0#8 s)) : P (gated i rule s) := by
  rcases gated_cases i rule s with ⟨h, ha, e⟩ | ⟨h, _, e⟩ | ⟨h, ha, e⟩ | ⟨h, _, e⟩ <;> rw [e]
  · exact herr h ha
  · exact hign h
  · exact hact h ha
  · exact hseq h

/-! ### The matcher (R211) -/

/-- `REV` finds a symbol that has the code (R176). -/
theorem rev_eq_some {t : Table Bits} {c : Bits} {x : Byte} (h : rev t c = some x) :
    tableGet t x = c ∧ c ≠ [] := by
  unfold rev at h
  rw [Option.map_eq_some_iff] at h
  obtain ⟨e, he, rfl⟩ := h
  have hm := List.mem_of_find?_eq_some he
  have hp := List.find?_some he
  rw [mem_tableEntries] at hm
  simp at hp
  exact ⟨hm.trans hp.2, by rw [← hp.2]; exact hp.1⟩

/-- `REV` finds nothing only if no symbol has the code. -/
theorem rev_eq_none {t : Table Bits} {c : Bits} (h : rev t c = none) (x : Byte) (hc : c ≠ []) :
    tableGet t x ≠ c := by
  unfold rev at h
  rw [Option.map_eq_none_iff, List.find?_eq_none] at h
  intro hx
  have := h (x, tableGet t x) (mem_tableEntries.2 rfl)
  simp [hx, hc] at this

/-- One bit fed: a symbol is matched, the candidate overflows, or it grows. -/
theorem feed_cases (opc : Byte) (t : Bool) (s : State) :
    (∃ x, rev s.code (s.cand ++ [t]) = some x ∧
      feed opc t s = .goes
        { s with out := s.out ++ [x], dcount := s.dcount + 1#32, cand := [] }) ∨
    (rev s.code (s.cand ++ [t]) = none ∧ (s.cand ++ [t]).length = s.maxLen.toNat ∧
      feed opc t s = .raised
        (raise opc .corruptedStream .candOverflow 0#8 { s with cand := s.cand ++ [t] })) ∨
    (rev s.code (s.cand ++ [t]) = none ∧ (s.cand ++ [t]).length ≠ s.maxLen.toNat ∧
      feed opc t s = .goes { s with cand := s.cand ++ [t] }) := by
  cases h : rev s.code (s.cand ++ [t]) with
  | some x => exact .inl ⟨x, rfl, by simp only [feed, h]; rfl⟩
  | none =>
    by_cases hl : (s.cand ++ [t]).length = s.maxLen.toNat
    · exact .inr (.inl ⟨rfl, hl, by simp only [feed, h, hl, if_true]⟩)
    · exact .inr (.inr ⟨rfl, hl, by simp only [feed, h, hl, if_false]⟩)

/-- What a fed string changes when it goes on: OUT, DCOUNT and CAND alone. -/
theorem feedAll_goes {opc : Byte} {ts : Bits} {s t : State} (h : feedAll opc ts s = .goes t) :
    ∃ l, t = { s with
      out := s.out ++ l, dcount := s.dcount + BitVec.ofNat 32 l.length, cand := t.cand } := by
  induction ts generalizing s with
  | nil =>
    simp [feedAll] at h
    subst h
    exact ⟨[], by simp⟩
  | cons b ts ih =>
    simp only [feedAll] at h
    rcases feed_cases opc b s with ⟨x, _, e⟩ | ⟨_, _, e⟩ | ⟨_, _, e⟩ <;> rw [e] at h
    · obtain ⟨l, hl⟩ := ih h
      refine ⟨x :: l, ?_⟩
      rw [hl]
      simp [add_assoc, add_comm (1#32), BitVec.ofNat_add]
    · cases h
    · obtain ⟨l, hl⟩ := ih h
      exact ⟨l, hl⟩

/-- What a fed string changes when it raises: the same, and the error (R270). -/
theorem feedAll_raised {opc : Byte} {ts : Bits} {s t : State} (h : feedAll opc ts s = .raised t) :
    ∃ l, t = raise opc .corruptedStream .candOverflow 0#8
      { s with
        out := s.out ++ l, dcount := s.dcount + BitVec.ofNat 32 l.length, cand := t.cand } := by
  induction ts generalizing s with
  | nil => simp [feedAll] at h
  | cons b ts ih =>
    simp only [feedAll] at h
    rcases feed_cases opc b s with ⟨x, _, e⟩ | ⟨_, _, e⟩ | ⟨_, _, e⟩ <;> rw [e] at h
    · obtain ⟨l, hl⟩ := ih h
      refine ⟨x :: l, ?_⟩
      rw [hl]
      simp [raise, add_assoc, add_comm (1#32), BitVec.ofNat_add]
    · cases h
      exact ⟨[], by simp [raise]⟩
    · obtain ⟨l, hl⟩ := ih h
      exact ⟨l, hl⟩

/-- Strings fed one after the other. -/
theorem feedAll_append (opc : Byte) (ts us : Bits) (s : State) :
    feedAll opc (ts ++ us) s =
      match feedAll opc ts s with
      | .goes s' => feedAll opc us s'
      | .raised s' => .raised s' := by
  induction ts generalizing s with
  | nil => rfl
  | cons b ts ih =>
    simp only [List.cons_append, feedAll]
    cases feed opc b s with
    | goes s' => exact ih s'
    | raised s' => rfl

/-! ### The window -/

/-- A read changes nothing of the block but OUT. -/
theorem readReg_frame (r : WindowReg) (s : State) :
    (readReg r s).2 = { s with out := (readReg r s).2.out, draws := (readReg r s).2.draws } := by
  cases r <;> simp only [readReg]
  case status => unfold readStatus; split <;> rfl
  case result => unfold readQuiet; split <;> rfl
  case errinfo => unfold readQuiet; split <;> rfl
  case symlen => unfold readQuiet; split <;> rfl
  case outData =>
    unfold readOutData
    split
    · rfl
    · split
      · rfl
      · split <;> rfl

/-- A read leaves OUT as it is, or is an OUT_DATA read that pops its head. -/
theorem readReg_out (r : WindowReg) (s : State) :
    (readReg r s).2.out = s.out ∨
    (r = .outData ∧ ∃ b, s.out = b :: (readReg r s).2.out ∧ (readReg r s).1 = outDataWord b) := by
  cases r
  case status => left; simp only [readReg, readStatus]; split <;> rfl
  case result => left; simp only [readReg, readQuiet]; split <;> rfl
  case errinfo => left; simp only [readReg, readQuiet]; split <;> rfl
  case symlen => left; simp only [readReg, readQuiet]; split <;> rfl
  case outData =>
    simp only [readReg, readOutData]
    split
    · left; rfl
    · next b q h =>
      split
      · right; exact ⟨trivial, b, h, rfl⟩
      · split
        · right; exact ⟨trivial, b, h, rfl⟩
        · left; rfl
  all_goals left; rfl

/-- A write changes ARG, CTRL, or, to CMD, PENDING with the model's delay. -/
theorem writeReg_cases (r : WindowReg) (v : Word) (s : State) :
    (r = .cmd ∧ writeReg r v s = writeCmd v s) ∨
    (r = .arg ∧ writeReg r v s = { s with arg := v }) ∨
    (r = .ctrl ∧ writeReg r v s = { s with ctrl := v.setWidth 2 }) ∨
    (r ≠ .cmd ∧ r ≠ .arg ∧ r ≠ .ctrl ∧ writeReg r v s = s) := by
  cases r <;> simp [writeReg]

/-- An access to a register of the window reaches it. -/
theorem windowTarget_in {p : Params} {off : Nat} (h : p.windowOrdered = true) (hoff : off < 0x40)
    (h4 : off % 4 = 0) : windowTarget p (p.base + off) 4 = .ok (regAt off) := by
  simp [windowTarget, h, hoff, h4]

end Sys2Proof.Machine
end

