-- ==== Sys2Proof/Laws/Exec.lean ====
section
/-! SUPPORT. What a command can do: `exec` as the gate over the command's rule, and what each rule
writes. -/

namespace Sys2Proof.Machine

/-- The rule of each command, where it acts (R102). -/
def ruleOf : Instr → State → State
  | .nop => id
  | .clr => leaveToFill
  | .put x => putRule x
  | .ldfreq x => ldfreqRule x
  | .build => buildRule
  | .pack => packRule
  | .unpk b => unpkRule b
  | .uend => uendRule
  | .rdfreq x => rdfreqRule x
  | .rdclen x => rdclenRule x
  | .rdcbits x k => rdcbitsRule x k
  | .drst => leaveToReady

/-- Every well-formed command is its rule behind the gate. -/
theorem exec_eq_gated {i : Instr} (h : i.wellFormed = true) (s : State) :
    exec i s = .next (gated i (ruleOf i) s) := by
  cases i
  case rdcbits x k =>
    have hk : k ≤ 7#8 := by simpa [Instr.wellFormed] using h
    simp only [exec, execRdcbits, hk, if_true, ruleOf]
  all_goals rfl

/-- RDCBITS with a chunk index above 7 is no command (R178). -/
theorem exec_illFormed {i : Instr} (h : i.wellFormed = false) (s : State) :
    exec i s = .next (illegalWord i.opcode s) := by
  cases i
  case rdcbits x k =>
    have hk : ¬ k ≤ 7#8 := by simpa [Instr.wellFormed] using h
    simp only [exec, execRdcbits, hk, if_false]
  all_goals simp [Instr.wellFormed] at h

/-- A word that is no command is ignored or raises ILLEGAL_COMMAND (R105). -/
theorem illegalWord_cases (opc : Byte) (s : State) :
    (s.phase = .error ∧ illegalWord opc s = s) ∨
    (s.phase ≠ .error ∧ illegalWord opc s = raise opc .illegalCommand .none 0#8 s) := by
  unfold illegalWord
  by_cases h : s.phase = .error <;> simp [h]

/-- What PUT does in FILL (R131). -/
theorem putRule_cases (x : Byte) (s : State) :
    (s.symLen = s.cfg.symCap ∧ putRule x s = raise 0x02#8 .symOverflow .none x s) ∨
    (s.symLen ≠ s.cfg.symCap ∧ tableGet s.freq x = 0xFFFFFFFF#32 ∧
      putRule x s = raise 0x02#8 .freqOverflow .none x s) ∨
    (s.symLen ≠ s.cfg.symCap ∧ tableGet s.freq x ≠ 0xFFFFFFFF#32 ∧
      putRule x s = { s with
        sym := s.sym ++ [x], freq := tableSet s.freq x (tableGet s.freq x + 1#32),
        result := tableGet s.freq x + 1#32 }) := by
  unfold putRule
  by_cases h : s.symLen = s.cfg.symCap
  · left; simp [h, Instr.opcode]
  · by_cases h' : tableGet s.freq x = 0xFFFFFFFF#32
    · right; left; simp [h, h', Instr.opcode]
    · right; right; simp [h, h']

/-- What BUILD does in FILL (R150). -/
theorem buildRule_cases (s : State) :
    (countedKeys s.freq = [] ∧ buildRule s = raise 0x04#8 .emptyInput .none 0#8 s) ∨
    (countedKeys s.freq ≠ [] ∧ buildRule s = { s with
      code := codeTable s.freq, maxLen := BitVec.ofNat 8 (maxCodeLen (codeTable s.freq)),
      tv := true, phase := .ready, result := BitVec.ofNat 32 (countedKeys s.freq).length }) := by
  have hiff : countedSymbols s.freq = [] ↔ countedKeys s.freq = [] := by
    rw [countedSymbols_eq, List.map_eq_nil_iff]
  unfold buildRule
  by_cases h : countedKeys s.freq = []
  · left; exact ⟨h, by rw [if_pos (hiff.2 h)]; rfl⟩
  · right; exact ⟨h, by rw [if_neg (fun e => h (hiff.1 e)), countedSymbols_length]⟩

/-- What PACK does in READY (R190). -/
theorem packRule_cases (s : State) :
    (s.sym = [] ∧ packRule s = raise 0x05#8 .emptyInput .none 0#8 s) ∨
    (∃ l x r, s.sym = l ++ x :: r ∧ (∀ y ∈ l, tableGet s.code y ≠ []) ∧
      tableGet s.code x = [] ∧ packRule s = raise 0x05#8 .noCode .none x s) ∨
    (s.sym ≠ [] ∧ (∀ y ∈ s.sym, tableGet s.code y ≠ []) ∧
      packRule s = { s with
        out := s.out ++ packedStream (encodedText s),
        result := BitVec.ofNat 32 (encodedText s).length }) := by
  unfold packRule
  by_cases h : s.sym = []
  · left; simp [h, Instr.opcode]
  · cases hf : s.sym.find? fun x => s.codeLen x == 0 with
    | some x =>
      obtain ⟨hx, l, r, hl, hb⟩ := List.find?_eq_some_iff_append.1 hf
      refine .inr (.inl ⟨l, x, r, hl, ?_, ?_, by simp [h, Instr.opcode]⟩)
      · intro y hy e
        have := hb y hy
        simp [State.codeLen, e] at this
      · simpa [State.codeLen] using hx
    | none =>
      refine .inr (.inr ⟨h, ?_, by simp [h]⟩)
      intro y hy e
      have := List.find?_eq_none.1 hf y hy
      simp [State.codeLen, e] at this

/-- What UNPK does in READY (R213). -/
theorem unpkHeader_cases (b : Byte) (s : State) :
    (1#8 ≤ b ∧ b ≤ 8#8 ∧ unpkHeader b s = { s with
      dpad := b.setWidth 4, dheldV := false, dheld := 0#8, cand := [], dcount := 0#32,
      phase := .dec }) ∨
    (¬ (1#8 ≤ b ∧ b ≤ 8#8) ∧
      unpkHeader b s = raise 0x06#8 .corruptedStream .badHeader 0#8 s) := by
  unfold unpkHeader
  by_cases h : 1#8 ≤ b ∧ b ≤ 8#8
  · left; simp only [h, and_self, if_true]
  · right; exact ⟨h, by rw [if_neg h]; rfl⟩

/-- What UNPK does in DEC (R212). -/
theorem unpkData_cases (b : Byte) (s : State) :
    (s.dheldV = false ∧ unpkData b s = { s with dheld := b, dheldV := true }) ∨
    (s.dheldV = true ∧ ∃ t, feedAll 0x06#8 (bits8 s.dheld) s = .goes t ∧
      unpkData b s = { t with dheld := b, dheldV := true }) ∨
    (s.dheldV = true ∧ ∃ t, feedAll 0x06#8 (bits8 s.dheld) s = .raised t ∧ unpkData b s = t) := by
  unfold unpkData
  cases hv : s.dheldV with
  | false => left; simp [Flow.andThen]
  | true =>
    right
    simp only [if_true, Instr.opcode]
    cases hf : feedAll 0x06#8 (bits8 s.dheld) s with
    | goes t => left; exact ⟨trivial, t, rfl, rfl⟩
    | raised t => right; exact ⟨trivial, t, rfl, rfl⟩

/-- What UEND does in READY and DEC (R214). -/
theorem uendRule_cases (s : State) :
    (s.phase = .ready ∧ uendRule s = raise 0x07#8 .corruptedStream .noHeader 0#8 s) ∨
    (s.phase ≠ .ready ∧ s.dheldV = false ∧
      uendRule s = raise 0x07#8 .corruptedStream .noData 0#8 s) ∨
    (s.phase ≠ .ready ∧ s.dheldV = true ∧
      ((∃ t, feedAll 0x07#8 ((bits8 s.dheld).take (8 - s.dpad.toNat)) s = .raised t ∧
        uendRule s = t) ∨
      (∃ t, feedAll 0x07#8 ((bits8 s.dheld).take (8 - s.dpad.toNat)) s = .goes t ∧ t.cand ≠ [] ∧
        uendRule s = raise 0x07#8 .corruptedStream .leftover 0#8 t) ∨
      (∃ t, feedAll 0x07#8 ((bits8 s.dheld).take (8 - s.dpad.toNat)) s = .goes t ∧ t.cand = [] ∧
        uendRule s = { clearDecoder t with result := t.dcount, phase := .ready }))) := by
  unfold uendRule
  by_cases h : s.phase = .ready
  · left; simp [h, Instr.opcode]
  cases hv : s.dheldV with
  | false => right; left; simp [h, Instr.opcode]
  | true =>
    right; right
    refine ⟨h, rfl, ?_⟩
    simp only [h, if_false, Instr.opcode, Bool.true_eq_false]
    cases hf : feedAll 0x07#8 ((bits8 s.dheld).take (8 - s.dpad.toNat)) s with
    | raised t => left; exact ⟨t, rfl, rfl⟩
    | goes t =>
      right
      by_cases hc : t.cand = []
      · right; exact ⟨t, rfl, hc, by simp [Flow.andThen, uendFinish, hc]⟩
      · left; exact ⟨t, rfl, hc, by simp [Flow.andThen, uendFinish, hc, Instr.opcode]⟩

/-- E's data bytes spell E and its padding (R193). -/
theorem flatMap_bits8_dataBytes (e : Bits) :
    (dataBytes e).flatMap bits8 = e ++ List.replicate (padCount e) false := by
  refine flatMap_bits8_groups8 _ _ ?_
  have : padCount e = 8 - e.length % 8 := rfl
  simp only [List.length_append, List.length_replicate]
  omega

/-- The number of E's data bytes (R197). -/
theorem dataBytes_length (e : Bits) : (dataBytes e).length = e.length / 8 + 1 := by
  have : padCount e = 8 - e.length % 8 := rfl
  simp only [dataBytes, List.length_map, groups8_length, List.length_append,
    List.length_replicate]
  omega

end Sys2Proof.Machine
end

