-- ==== Sys2Proof/Laws/PerInstr.lean ====
section
/-! SUPPORT. The per-instruction family EncodeLegal: the word of a well-formed command passes the
legality test of spec/30_encoding.md R104. -/

namespace Sys2Proof.Laws.EncodeLegal

/-- A well-formed command's word is legal (R104), and carries the command's opcode (R102). -/
def Statement (i : Instr) : Prop :=
  i.wellFormed = true → legal (encode i) = true ∧ fieldOpc (encode i) = i.opcode

theorem nop : Statement .nop := fun _ => ⟨by decide, fieldOpc_encode _⟩
theorem clr : Statement .clr := fun _ => ⟨by decide, fieldOpc_encode _⟩
theorem put (s : Byte) : Statement (.put s) :=
  fun _ => ⟨by simp [legal, encode], fieldOpc_encode _⟩
theorem ldfreq (s : Byte) : Statement (.ldfreq s) :=
  fun _ => ⟨by simp [legal, encode], fieldOpc_encode _⟩
theorem build : Statement .build := fun _ => ⟨by decide, fieldOpc_encode _⟩
theorem pack : Statement .pack := fun _ => ⟨by decide, fieldOpc_encode _⟩
theorem unpk (b : Byte) : Statement (.unpk b) :=
  fun _ => ⟨by simp [legal, encode], fieldOpc_encode _⟩
theorem uend : Statement .uend := fun _ => ⟨by decide, fieldOpc_encode _⟩
theorem rdfreq (s : Byte) : Statement (.rdfreq s) :=
  fun _ => ⟨by simp [legal, encode], fieldOpc_encode _⟩
theorem rdclen (s : Byte) : Statement (.rdclen s) :=
  fun _ => ⟨by simp [legal, encode], fieldOpc_encode _⟩
theorem rdcbits (s k : Byte) : Statement (.rdcbits s k) := fun h =>
  ⟨by simpa [legal, encode, Instr.wellFormed] using h, fieldOpc_encode _⟩
theorem drst : Statement .drst := fun _ => ⟨by decide, fieldOpc_encode _⟩

end Sys2Proof.Laws.EncodeLegal
end

