-- ==== Sys2Proof/Laws/Step.lean ====
section
/-! SUPPORT. What one step can do: one inversion lemma per agent and one for the step. -/

namespace Sys2Proof.Machine

/-- A host access as it changes the state: the accesses still to come, the delay, the reads and the
draws are the host's and the model's; of the block only ARG, CTRL, PENDING (by `writeCmd`) and the
head of OUT (by an OUT_DATA read) move (R77). -/
inductive HostChange (s : State) : State → Prop where
  | ignored (rest : List HostOp) (d : Nat) : HostChange s { s with host := rest, delay := d }
  | arg (rest : List HostOp) (d : Nat) (v : Word) :
      HostChange s { s with host := rest, delay := d, arg := v }
  | ctrl (rest : List HostOp) (d : Nat) (v : BitVec 2) :
      HostChange s { s with host := rest, delay := d, ctrl := v }
  | cmd (rest : List HostOp) (d : Nat) (w : Word) (hb : s.busy = false)
      (ha : s.host = .write s.cfg.base 4 w :: rest) :
      HostChange s (writeCmd w { s with host := rest, delay := d })
  | read (rest : List HostOp) (d : Nat) (r : WindowReg) (v : Word) (n : Nat) :
      HostChange s
        { s with host := rest, delay := d, reads := s.reads ++ [⟨r, v⟩], draws := n }
  | pop (rest : List HostOp) (d : Nat) (b : Byte) (q : List Byte) (n : Nat) (h : s.out = b :: q) :
      HostChange s
        { s with
          host := rest, delay := d, reads := s.reads ++ [⟨.outData, outDataWord b⟩], out := q,
          draws := n }
  | reset (rest : List HostOp) (d : Nat) :
      HostChange s (assertReset { s with host := rest, delay := d })

/-- Only offset 0 of the window is CMD. -/
theorem windowTarget_eq_cmd {p : Params} {addr bytes : Nat}
    (h : windowTarget p addr bytes = .ok .cmd) : addr = p.base ∧ bytes = 4 := by
  unfold windowTarget at h
  split at h
  · cases h
  split at h
  · cases h
  split at h
  · cases h
  next h1 h2 h3 =>
    have h4 : bytes = 4 := by by_contra e; exact h3 (.inl e)
    refine ⟨?_, h4⟩
    have hreg : regAt (addr - p.base) = .cmd := by simpa using h
    have hlt : addr - p.base < 0x40 := by omega
    have hzero : addr - p.base = 0 := by
      revert hreg
      generalize addr - p.base = off at hlt
      intro hreg
      unfold regAt at hreg
      split at hreg <;> simp_all
    omega

/-- A host read that is made. -/
theorem hostRead_cases {addr bytes : Nat} {s u : State} {v : Word}
    (h : hostRead addr bytes s = .ok (v, u)) :
    (∃ r n, u = { s with reads := s.reads ++ [⟨r, v⟩], draws := n }) ∨
    (∃ b q n, s.out = b :: q ∧
      u = { s with reads := s.reads ++ [⟨.outData, outDataWord b⟩], out := q, draws := n }) := by
  unfold hostRead at h
  split at h
  · cases h
  next reg _ =>
    have h' := Except.ok.inj h
    have hv : (readReg reg s).1 = v := congrArg Prod.fst h'
    have hu := congrArg Prod.snd h'
    simp only at hu
    subst hu
    have hf := readReg_frame reg s
    rcases readReg_out reg s with ho | ⟨rfl, b, hb, hw⟩
    · left
      refine ⟨reg, (readReg reg s).2.draws, ?_⟩
      rw [hf, hv, ho]
    · right
      refine ⟨b, (readReg .outData s).2.out, (readReg .outData s).2.draws, hb, ?_⟩
      rw [hf, hw]

/-- The host's turn idles or makes one access. -/
theorem hostTurn_next {s t : State} (h : hostTurn s = .next t) :
    (s.host = [] ∧ t = s) ∨ HostChange s t := by
  unfold hostTurn at h
  split at h
  · next he => left; exact ⟨he, (Host.Outcome.next.inj h).symm⟩
  next op rest he =>
  right
  split at h
  · split at h
    · rw [← Host.Outcome.next.inj h]
      exact .reset _ s.delay
    · cases h
  next hw =>
  cases op with
  | write addr bytes v =>
    simp only [hostMove] at h
    split at h
    · cases h
    next reg hreg =>
    rw [← Host.Outcome.next.inj h]
    rcases writeReg_cases reg v { s with host := rest, delay := s.delay - 1 } with
      ⟨rfl, e⟩ | ⟨_, e⟩ | ⟨_, e⟩ | ⟨_, _, _, e⟩ <;> rw [e]
    · have hb : s.busy = false := by
        simp only [hostWaits, he] at hw
        rw [hreg] at hw
        simpa using hw
      obtain ⟨ha, h4⟩ := windowTarget_eq_cmd hreg
      exact .cmd rest _ v hb (by rw [he, ha, h4])
    · exact .arg rest _ v
    · exact .ctrl rest _ _
    · exact .ignored rest _
  | read addr bytes =>
    simp only [hostMove] at h
    split at h
    · cases h
    next v u hu =>
    rw [← Host.Outcome.next.inj h]
    rcases hostRead_cases hu with ⟨r, n, rfl⟩ | ⟨b, q, n, hb, rfl⟩
    · exact .read rest _ r v n
    · exact .pop rest _ b q n hb
  | wait =>
    simp only [hostMove] at h
    split at h
    · cases h
    next v u hu =>
    rw [← Host.Outcome.next.inj h]
    rcases hostRead_cases hu with ⟨r, n, rfl⟩ | ⟨b, q, n, hb, rfl⟩ <;> split
    · exact .read _ _ r v n
    · exact .read rest _ r v n
    · exact .pop _ _ b q n hb
    · exact .pop rest _ b q n hb
  | drain =>
    simp only [hostMove] at h
    split at h
    · cases h
    next v u hu =>
    rw [← Host.Outcome.next.inj h]
    rcases hostRead_cases hu with ⟨r, n, rfl⟩ | ⟨b, q, n, hb, rfl⟩ <;> split
    · exact .read rest _ r v n
    · exact .read _ _ r v n
    · exact .pop rest _ b q n hb
    · exact .pop _ _ b q n hb
  | assertReset =>
    simp only [hostMove] at h
    rw [← Host.Outcome.next.inj h]
    exact .reset rest _
  | releaseReset =>
    simp only [hostMove] at h
    rw [← Host.Outcome.next.inj h]
    exact .ignored rest _

/-- The dispatch of a word answers a next state: a command's gated rule, or the treatment of an
illegal word. -/
theorem dispatchWord_next {w : Word} {s t : State} (h : dispatchWord w s = .next t) :
    (∃ i, decode w = .ok i ∧ exec i s = .next t) ∨
    ((∀ i, decode w ≠ .ok i) ∧ t = illegalWord (fieldOpc w) s) := by
  unfold dispatchWord at h
  split at h
  · next i hi => left; exact ⟨i, hi, h⟩
  · next e he => right; exact ⟨by simp [he], (Host.Outcome.next.inj h).symm⟩

/-- The block's turn performs the pending command or settles (R79). -/
theorem blockTurn_next {s t : State} (h : blockTurn s = .next t) :
    (∃ p u, s.pending = some p ∧ dispatchWord p.word s = .next u ∧ t = finish u) ∨
    (s.pending = none ∧ t = settle s) := by
  unfold blockTurn at h
  split at h
  · next p hp =>
    left
    unfold perform at h
    split at h
    · next u hu => exact ⟨p, u, hp, hu, (Host.Outcome.next.inj h).symm⟩
    · cases h
    · cases h
  · next hp => right; exact ⟨hp, (Host.Outcome.next.inj h).symm⟩

/-- A turn while reset is asserted idles, releases reset, or drops a second assertion. -/
theorem resetTurn_next {s t : State} (h : resetTurn s = .next t) :
    t = s ∨ (∃ rest, t = releaseReset { s with host := rest }) ∨
    (∃ rest, t = { s with host := rest }) := by
  unfold resetTurn at h
  split at h <;> first
    | (cases h; done)
    | (rw [← Host.Outcome.next.inj h]
       first
         | exact .inl rfl
         | exact .inr (.inl ⟨_, rfl⟩)
         | exact .inr (.inr ⟨_, rfl⟩))

/-- All that one step can do. -/
theorem step_next {s t : State} (h : step s = .next t) :
    (s.resetLine = true ∧
      (t = s ∨ (∃ rest, t = releaseReset { s with host := rest }) ∨
        (∃ rest, t = { s with host := rest }))) ∨
    (s.resetLine = false ∧ blockMovesNext s = true ∧
      ((∃ p u, s.pending = some p ∧ dispatchWord p.word s = .next u ∧ t = finish u) ∨
        (s.pending = none ∧ t = settle s))) ∨
    (s.resetLine = false ∧ blockMovesNext s = false ∧ ((s.host = [] ∧ t = s) ∨ HostChange s t)) := by
  unfold step at h
  split at h
  · next hr => exact .inl ⟨hr, resetTurn_next h⟩
  next hr =>
  have hr' : s.resetLine = false := by simpa using hr
  split at h
  · next hb => exact .inr (.inl ⟨hr', hb, blockTurn_next h⟩)
  · next hb => exact .inr (.inr ⟨hr', by simpa using hb, hostTurn_next h⟩)

end Sys2Proof.Machine
end

