-- ==== Sys2Proof/Machine/HostProgram.lean ====
section
/-! DEFINITION. Host programs as spec/30_encoding.md R109 and R110 write them, and the host actions
they stand for. -/

namespace Sys2Proof.Machine

/-- The offset of a register in the window (R71); the first reserved offset stands for `reserved`. -/
def regOffset : WindowReg → Nat
  | .cmd => 0x00
  | .arg => 0x04
  | .status => 0x08
  | .result => 0x0C
  | .errinfo => 0x10
  | .ctrl => 0x14
  | .outData => 0x18
  | .symlen => 0x1C
  | .id => 0x20
  | .cap => 0x24
  | .reserved => 0x28

/-- One line of a host program (R109, R110). -/
inductive HostLine where
  /-- `wr ARG, v` and `wr CTRL, v` -/
  | wr (r : WindowReg) (v : Word)
  /-- `cmd …` -/
  | cmd (i : Instr)
  /-- `rd REG` -/
  | rd (r : WindowReg)
  /-- `LDF s, v` -/
  | ldf (s : Byte) (v : Word)
  /-- `PUTS "t"` -/
  | puts (t : List Byte)
  /-- `UNPKS b0, b1, …` -/
  | unpks (bs : List Byte)
  /-- `WAIT` -/
  | wait
  /-- `DRAIN` -/
  | drain
  deriving DecidableEq, Repr

/-- The CMD write of a command (R109). -/
def cmdWrite (base : Nat) (i : Instr) : HostOp := .write (base + regOffset .cmd) 4 (encode i)

/-- The host actions of a line (R109, R110); WAIT and DRAIN are loops of the host and stay host
actions of their own. -/
def HostLine.expand (base : Nat) : HostLine → List HostOp
  | .wr r v => [.write (base + regOffset r) 4 v]
  | .cmd i => [cmdWrite base i]
  | .rd r => [.read (base + regOffset r) 4]
  | .ldf x v => [.write (base + regOffset .arg) 4 v, cmdWrite base (.ldfreq x)]
  | .puts t => t.map fun x => cmdWrite base (.put x)
  | .unpks bs => bs.map fun b => cmdWrite base (.unpk b)
  | .wait => [.wait]
  | .drain => [.drain]

/-- The host actions of a program, in program order (R86). -/
def hostProgram (base : Nat) (p : List HostLine) : List HostOp := p.flatMap (HostLine.expand base)

end Sys2Proof.Machine
end

