-- ==== Sys2Proof/Tests/Slice0.lean ====
section
/-! SUPPORT. Tests of the model on the vectors of spec/95_test_vectors.md, and for every statement with
hypotheses a concrete state that meets them. -/

namespace Sys2Proof.Tests

open Sys2Proof.Machine Sys2Proof.Spec

/-! ### States the tests start from -/

/-- FREQ with the given counts. -/
def freqOf (l : List (Byte × Word)) : Table Word :=
  l.foldl (fun t e => tableSet t e.1 e.2) (tableOf 0#32)

/-- FILL with the given counts. -/
def filled (l : List (Byte × Word)) : State := { State.reset with freq := freqOf l }

/-- The counts of "aabbbcc". -/
def counts3 : List (Byte × Word) := [(0x61#8, 2#32), (0x62#8, 3#32), (0x63#8, 2#32)]

/-- "aabbbcc". -/
def text3 : List Byte := [0x61#8, 0x61#8, 0x62#8, 0x62#8, 0x62#8, 0x63#8, 0x63#8]

/-- Table T3 of spec/95_test_vectors.md, written out: b = "0", a = "10", c = "11". -/
def code3 : Table Bits :=
  tableSet (tableSet (tableSet (tableOf []) 0x61#8 [true, false]) 0x62#8 [false]) 0x63#8 [true, true]

/-- READY with T3, MAXLEN 2, "aabbbcc" buffered. -/
def ready3 : State :=
  { filled counts3 with phase := .ready, tv := true, code := code3, maxLen := 2#8, sym := text3 }

/-- DEC with T3, header `p`, byte `d` held. -/
def dec3 (p : BitVec 4) (d : Byte) : State :=
  { ready3 with phase := .dec, dpad := p, dheldV := true, dheld := d }

/-- The state a command leads to. -/
def after (i : Instr) (s : State) : State :=
  match exec i s with
  | .next t => t
  | _ => State.reset

/-- The state a step leads to. -/
def afterStep (s : State) : State :=
  match step s with
  | .next t => t
  | _ => State.reset

/-! ### Decoding: words written out from the patterns of R103, and the illegal words of 95 §2.1 -/

theorem test_decode_nop : decode 0b00000000000000000000000000000000#32 = .ok .nop := by decide
theorem test_decode_clr : decode 0b00000000000000000000000000000001#32 = .ok .clr := by decide
theorem test_decode_put :
    decode 0b00000000000000000110000100000010#32 = .ok (.put 0x61#8) := by decide
theorem test_decode_ldfreq :
    decode 0b00000000000000000110001000000011#32 = .ok (.ldfreq 0x62#8) := by decide
theorem test_decode_build : decode 0b00000000000000000000000000000100#32 = .ok .build := by decide
theorem test_decode_pack : decode 0b00000000000000000000000000000101#32 = .ok .pack := by decide
theorem test_decode_unpk :
    decode 0b00000000000000001111111100000110#32 = .ok (.unpk 0xFF#8) := by decide
theorem test_decode_uend : decode 0b00000000000000000000000000000111#32 = .ok .uend := by decide
theorem test_decode_rdfreq :
    decode 0b00000000000000001000000000001000#32 = .ok (.rdfreq 0x80#8) := by decide
theorem test_decode_rdclen :
    decode 0b00000000000000000000000100001001#32 = .ok (.rdclen 0x01#8) := by decide
theorem test_decode_rdcbits :
    decode 0b00000000000001110110000100001010#32 = .ok (.rdcbits 0x61#8 7#8) := by decide
theorem test_decode_drst : decode 0b00000000000000000000000000001011#32 = .ok .drst := by decide

theorem test_decode_illegal :
    decode 0x0008610A#32 = .error .chunkTooLarge ∧
    decode 0x00016102#32 = .error .unusedFieldNotZero ∧
    decode 0x00000100#32 = .error .unusedFieldNotZero ∧
    decode 0x00000101#32 = .error .unusedFieldNotZero ∧
    decode 0x01000000#32 = .error .reservedNotZero ∧
    decode 0x0000000C#32 = .error .unknownOpcode ∧
    decode 0xFFFFFFFF#32 = .error .reservedNotZero := by decide

theorem test_encode :
    encode (.put 0x61#8) = 0x00006102#32 ∧ encode (.rdcbits 0x61#8 7#8) = 0x0007610A#32 ∧
    encode (.unpk 0xE0#8) = 0x0000E006#32 ∧ encode .drst = 0x0000000B#32 := by decide

theorem test_decodeTableWord :
    decodeTableWord 32 0x0000A106 = some (.unpk 0xA1#8) ∧ decodeTableWord 32 0x0000000C = none := by
  decide

/-! ### WellFormed: the one operand limit, K ≤ 7 -/

theorem test_wellFormed_refuses_chunk_8 : (Instr.rdcbits 0x61#8 8#8).wellFormed = false := by decide
theorem test_wellFormed_admits_chunk_7 : (Instr.rdcbits 0x61#8 7#8).wellFormed = true := by decide

/-! ### One command each (95 §2.3 to §2.9) -/

/-- NOP in READY and in ERROR (95 §2.8). -/
theorem test_nop : after .nop ready3 = ready3 ∧
    after .nop { ready3 with phase := .error } = { ready3 with phase := .error } := ⟨rfl, rfl⟩

/-- CLR keeps ARG and CTRL (95 §2.8). -/
theorem test_clr :
    let t := after .clr { ready3 with arg := 7#32, ctrl := 3#2, out := [1#8], result := 9#32 }
    t.statusWord = 0#32 ∧ t.result = 0#32 ∧ t.symLen = 0 ∧ t.arg = 7#32 ∧ t.ctrl = 3#2 ∧
      tableGet t.freq 0x61#8 = 0#32 ∧ tableGet t.code 0x61#8 = [] := by decide +kernel

/-- The second PUT 'a' (95 §2.3, first row). -/
theorem test_put_counts :
    let t := after (.put 0x61#8) { filled [(0x61#8, 1#32)] with sym := [0x61#8] }
    t.result = 2#32 ∧ t.symLen = 2 ∧ tableGet t.freq 0x61#8 = 2#32 := by decide +kernel

/-- PUT 'a' with FREQ['a'] = 0xFFFF_FFFF: STATUS 0x73, ERRINFO 0x0061_0002 (95 §2.3). -/
theorem test_put_overflow :
    let t := after (.put 0x61#8) (filled [(0x61#8, 0xFFFFFFFF#32)])
    t.statusWord = 0x73#32 ∧ t.errInfo = 0x00610002#32 ∧ t.symLen = 0 := by decide +kernel

/-- LDFREQ loads the captured ARG, not the present one (95 §2.3, P2 line 5). -/
theorem test_ldfreq :
    let t := after (.ldfreq 0x62#8) { State.reset with pending := some ⟨0x6203#32, 3#32⟩, arg := 2#32 }
    tableGet t.freq 0x62#8 = 3#32 ∧ t.result = 0#32 ∧ t.symLen = 0 := by decide +kernel

theorem test_rdfreq :
    (after (.rdfreq 0x62#8) (filled counts3)).result = 3#32 ∧
      (after (.rdfreq 0x64#8) (filled counts3)).result = 0#32 := by decide +kernel

/-- BUILD of a:2, b:3, c:2 gives T3, n = 3, MAXLEN 2 (95 §2.4). -/
theorem test_build :
    let t := after .build (filled counts3)
    tableGet t.code 0x61#8 = [true, false] ∧ tableGet t.code 0x62#8 = [false] ∧
      tableGet t.code 0x63#8 = [true, true] ∧ t.maxLen = 2#8 ∧ t.result = 3#32 := by decide +kernel

/-- The three-way tie a:3, b:3, c:3: c = "0", a = "10", b = "11" (95 §2.4). -/
theorem test_build_tie :
    let t := after .build (filled [(0x61#8, 3#32), (0x62#8, 3#32), (0x63#8, 3#32)])
    tableGet t.code 0x63#8 = [false] ∧ tableGet t.code 0x61#8 = [true, false] ∧
      tableGet t.code 0x62#8 = [true, true] := by decide +kernel

theorem test_rdclen :
    (after (.rdclen 0x61#8) ready3).result = 2#32 ∧
      (after (.rdclen 0x64#8) ready3).result = 0#32 := by decide +kernel

/-- RDCBITS 'c', 0 and 'a', 0 of T3 (95 §2.5). -/
theorem test_rdcbits :
    (after (.rdcbits 0x63#8 0#8) ready3).result = 0xC0000000#32 ∧
      (after (.rdcbits 0x61#8 0#8) ready3).result = 0x80000000#32 := by decide +kernel

/-- PACK of "aabbbcc": 05 A1 E0, RESULT 11, STATUS 0x0020_0209 (95 §2.6). -/
theorem test_pack :
    let t := after .pack ready3
    t.out = [0x05#8, 0xA1#8, 0xE0#8] ∧ t.result = 11#32 ∧ t.statusWord = 0x00200209#32 := by
  decide +kernel

/-- PACK in FILL raises SEQUENCE (95 §2.6). -/
theorem test_pack_in_fill :
    let t := after .pack (filled counts3)
    t.statusWord = 0x43#32 ∧ t.errInfo = 0x5#32 := by decide +kernel

/-- UNPK E0 after 05 A1: emits 61 61 62 62 62 (95 §2.7). -/
theorem test_unpk :
    let t := after (.unpk 0xE0#8) (dec3 5#4 0xA1#8)
    t.out = [0x61#8, 0x61#8, 0x62#8, 0x62#8, 0x62#8] ∧ t.statusWord = 0x0035020A#32 := by
  decide +kernel

/-- Header 09: BAD_HEADER (95 §2.7). -/
theorem test_unpk_bad_header :
    let t := after (.unpk 0x09#8) ready3
    t.statusWord = 0x0000022B#32 ∧ t.errInfo = 0x0106#32 := by decide +kernel

/-- UEND after 05 A1 E0, the candidate holding the last bit of A1: emits 63 63, RESULT 7 (95 §2.7). -/
theorem test_uend :
    let t := after .uend { dec3 5#4 0xE0#8 with cand := [true], dcount := 5#32 }
    t.out = [0x63#8, 0x63#8] ∧ t.result = 7#32 ∧ t.statusWord = 0x00200209#32 := by decide +kernel

/-- UEND after 05 A1: LEFTOVER (95 §2.7). -/
theorem test_uend_leftover :
    let t := after .uend (dec3 5#4 0xA1#8)
    t.out = [0x61#8] ∧ t.statusWord = 0x0035022B#32 ∧ t.errInfo = 0x0507#32 := by decide +kernel

/-- DRST after an error with the table kept: STATUS 0x0000_0209 (95 §2.7, §2.9). -/
theorem test_drst :
    let t := after .drst (after .uend (dec3 5#4 0xA1#8))
    t.statusWord = 0x209#32 ∧ t.errInfo = 0#32 ∧ tableGet t.code 0x61#8 = [true, false] := by decide +kernel

/-! ### Steps and the window (95 §2.2, §2.9, §2.10) -/

/-- The machine runs the command placed by `withFetchWord`. -/
theorem test_withFetchWord :
    (afterStep (State.reset.withFetchWord 32 0x00006102)).sym = [0x61#8] := by decide +kernel

/-- An illegal word in FILL: STATUS bits 0x33, ERRINFO = its opcode (95 §2.9). -/
theorem test_illegal_word :
    let t := afterStep (State.reset.withFetchWord 32 0x0000000C)
    t.err = .illegalCommand ∧ t.phase = .error ∧ t.errInfo = 0xC#32 := by decide +kernel

/-- CTRL has two bits (95 §2.2). -/
theorem test_ctrl : (readReg .ctrl (writeReg .ctrl 0xFFFFFFFF#32 State.reset)).1 = 3#32 := by decide

/-- OUT_DATA of a queue with 05 at its head (95 §2.2). -/
theorem test_outData :
    (readReg .outData { State.reset with out := [0x05#8, 0xA1#8] }).1 = 0x105#32 := by decide

/-- irq with CTRL = 2: high while idle, low while OUT is above OUT_DEPTH (95 §2.10). -/
theorem test_irq :
    { State.reset with ctrl := 2#2 }.irq = true ∧
      { State.reset with ctrl := 2#2, out := List.replicate 17 0#8 }.irq = false := by decide

/-- The accesses of P2 lines 2 and 3 (95 §3). -/
theorem test_host_program :
    hostProgram 0 [.ldf 0x61#8 2#32] = [.write 4 4 2#32, .write 0 4 0x6103#32] := by decide

/-! ### Witnesses: for every statement with hypotheses, a state and operands that meet them -/

/-- Any command's `exec` and what it leads to. -/
theorem exec_after (i : Instr) (s : State) : exec i s = .next (after i s) := by
  cases i <;> rfl

/-- The table that gives symbol 0x00 the code `c` and no other symbol a code. -/
def codeZero (c : Bits) : Table Bits := tableSet (tableOf []) 0#8 c

/-- READY with the one symbol 0x00 counted and buffered, as BUILD leaves it. -/
def ready1 : State :=
  { filled [(0#8, 1#32)] with
    phase := .ready, tv := true, code := codeZero [false], maxLen := 1#8, sym := [0#8],
    result := 1#32 }

/-- The host reads (or writes) at an offset of the window, and nothing is in flight. -/
def hostAt (op : HostOp) : State := { State.reset with host := [op] }

/-- The same with a command in flight, the host going first. -/
def hostAtBusy (op : HostOp) : State :=
  { State.reset with host := [op], pending := some ⟨0#32, 0#32⟩, delay := 1, out := [5#8] }

theorem countedSymbols_ready1 : countedSymbols ready1.freq = [(0#8, 1#32)] := by
  have h : ready1.freq = tableSet (tableOf 0#32) 0#8 1#32 := rfl
  rw [countedSymbols_eq, h]
  have hk : countedKeys (tableSet (tableOf 0#32) 0#8 1#32) = allSymbols.filter (· == 0#8) := by
    unfold countedKeys
    congr 1
    funext x
    by_cases hx : x = 0#8 <;> simp [tableGet_set, hx]
  have hz : allSymbols.filter (· == 0#8) = [0#8] := by decide +kernel
  simp [hk, hz, tableGet_set]

theorem ready1_inv : ready1.Inv := by
  have hc : ready1.code = codeTable ready1.freq := by
    rw [codeTable, countedSymbols_ready1]; rfl
  have hm : ready1.maxLen.toNat = maxCodeLen ready1.code := by decide +kernel
  constructor
  · constructor <;> simp [ready1, filled, State.reset, State.resetWith, State.symLen, Config.reference]
  · constructor
    · intro _; rw [countedSymbols_ready1]; simp
    · intro _; exact hc
    · intro _; exact hm
    · intro h; cases h

theorem ready1_counts : ready1.CountsSym := by
  intro x
  have h : ready1.freq = tableSet (tableOf 0#32) 0#8 1#32 := rfl
  rw [h]
  by_cases hx : x = 0#8
  · subst hx; simp [ready1]
  · simp [tableGet_set, ready1, hx, Ne.symm hx]

theorem symbolOf_codeZero {c d : Bits} (hc : c ≠ []) :
    symbolOf (codeZero c) d = if c = d then some 0#8 else none := by
  unfold symbolOf codeZero
  split
  · next h =>
    have ha : allSymbols = 0#8 :: allSymbols.tail := rfl
    rw [ha, List.find?_cons_of_pos]
    simp [h, h ▸ hc]
  · next h =>
    rw [List.find?_eq_none]
    intro x _
    by_cases hx : x = 0#8 <;> simp [tableGet_set, hx, h]

theorem scan_match {code : Table Bits} {m : Nat} {c ts : Bits} {t : Bool} {x : Byte}
    (h : symbolOf code (c ++ [t]) = some x) :
    scan code m c (t :: ts) =
      ⟨x :: (scan code m [] ts).emitted, (scan code m [] ts).cand, (scan code m [] ts).overflow⟩ := by
  rw [scan, h]

theorem scan_miss {code : Table Bits} {m : Nat} {c ts : Bits} {t : Bool}
    (h : symbolOf code (c ++ [t]) = none) :
    scan code m c (t :: ts) =
      if (c ++ [t]).length = m then ⟨[], c ++ [t], true⟩ else scan code m (c ++ [t]) ts := by
  rw [scan, h]

/-- Zeros never overflow the code "0". -/
theorem scan_zeros (n : Nat) :
    (scan (codeZero [false]) 1 [] (List.replicate n false)).overflow = false := by
  induction n with
  | zero => rfl
  | succ n ih =>
    rw [List.replicate_succ, scan_match (x := 0#8)]
    · exact ih
    · rw [symbolOf_codeZero (by simp)]; rfl

/-- A one overflows the code "0". -/
theorem scan_one (ts : Bits) : (scan (codeZero [false]) 1 [] (true :: ts)).overflow = true := by
  rw [scan_miss]
  · rfl
  · rw [symbolOf_codeZero (by simp)]; rfl

/-- A lone first bit of the code "10" is left over. -/
theorem scan_leftover : (scan (codeZero [true, false]) 2 [] [true]).cand = [true] := by
  rw [scan_miss]
  · rfl
  · rw [symbolOf_codeZero (by simp)]; rfl

/-- The code "10" is matched to its end. -/
theorem scan_whole : (scan (codeZero [true, false]) 2 [true] [false]).cand = [] := by
  rw [scan_match (x := 0#8)]
  · rfl
  · rw [symbolOf_codeZero (by simp)]; rfl

theorem hostTurnIn_hostAt (op : HostOp) : hostTurnIn (hostAt op) := ⟨rfl, rfl, rfl⟩

theorem witness_StepPerformsPendingCommand :
    let s := placeCommand 0x6102#32 State.reset
    blockTurnIn s ∧ s.pending = some ⟨0x6102#32, 0#32⟩ ∧ decode 0x6102#32 = .ok (.put 0x61#8) ∧
      exec (.put 0x61#8) s = .next (after (.put 0x61#8) s) :=
  ⟨⟨rfl, rfl⟩, rfl, by decide, exec_after _ _⟩

theorem witness_IllegalWordRaises :
    let s := placeCommand 0x0008610A#32 State.reset
    blockTurnIn s ∧ s.pending = some ⟨0x0008610A#32, 0#32⟩ ∧
      (∀ r ∈ opcodeRows, 0x0008610A#32 &&& r.mask ≠ r.pattern) ∧ s.phase ≠ .error :=
  ⟨⟨rfl, rfl⟩, rfl, by decide, by decide⟩

theorem witness_SettleClearsTail :
    blockTurnIn { State.reset with tail := true } ∧ State.reset.pending = none := ⟨⟨rfl, rfl⟩, rfl⟩

/-- A state in ERROR with the word `w` pending. -/
def errorWith (w : Word) (tv : Bool) : State :=
  placeCommand w { State.reset with phase := .error, err := .sequence, tv := tv }

/-- One witness for each clause; DRST's word falls under the second or the third by TV. -/
theorem witness_ErrorPhaseIgnoresTheRest :
    (blockTurnIn (errorWith 1#32 false) ∧ (errorWith 1#32 false).phase = .error) ∧
    (blockTurnIn (errorWith 0xB#32 true) ∧ (errorWith 0xB#32 true).tv = true) ∧
    (blockTurnIn (errorWith 0xB#32 false) ∧ (errorWith 0xB#32 false).tv = false) ∧
    (blockTurnIn (errorWith 0x6102#32 true) ∧ 0x6102#32 ≠ 1#32 ∧ 0x6102#32 ≠ 0xB#32) :=
  ⟨⟨⟨rfl, rfl⟩, rfl⟩, ⟨⟨rfl, rfl⟩, rfl⟩, ⟨⟨rfl, rfl⟩, rfl⟩, ⟨⟨rfl, rfl⟩, by decide, by decide⟩⟩

theorem witness_OutOfPhaseRaisesSequence :
    (Instr.drst.wellFormed = true ∧ outOfPhase .drst State.reset.phase) ∧
    ((Instr.put 0x61#8).wellFormed = true ∧ outOfPhase (.put 0x61#8) ready1.phase) ∧
    ((Instr.rdcbits 0#8 7#8).wellFormed = true ∧ outOfPhase (.rdcbits 0#8 7#8) State.reset.phase) :=
  ⟨⟨rfl, rfl⟩, ⟨rfl, .inl rfl⟩, ⟨rfl, rfl⟩⟩

/-- UEND that emits a symbol and then raises LEFTOVER. -/
theorem witness_RaiseKeepsEverythingElse :
    (dec3 5#4 0xA1#8).phase ≠ .error ∧
      exec .uend (dec3 5#4 0xA1#8) = .next (after .uend (dec3 5#4 0xA1#8)) ∧
      (after .uend (dec3 5#4 0xA1#8)).phase = .error ∧ Instr.uend.wellFormed = true :=
  ⟨by decide, exec_after _ _, by decide +kernel, rfl⟩

theorem witness_ErrorCodesAndDetails :
    Instr.pack.wellFormed = true ∧ State.reset.phase ≠ .error ∧
      exec .pack State.reset = .next (after .pack State.reset) ∧
      (after .pack State.reset).phase = .error :=
  ⟨rfl, by decide, exec_after _ _, rfl⟩

theorem witness_NopHasNoEffect : (0x100#32).extractLsb' 0 8 = 0#8 := by decide

/-- At the last count that still fits. -/
theorem witness_PutAppendsAndCounts :
    let s := filled [(0x61#8, 0xFFFFFFFE#32)]
    s.phase = .fill ∧ s.symLen ≠ s.cfg.symCap ∧ tableGet s.freq 0x61#8 ≠ 0xFFFFFFFF#32 := by
  decide +kernel

/-- A full buffer of capacity 2, and a count at its maximum. -/
theorem witness_PutOverflowErrors :
    (let s := { State.resetWith { Config.reference with symCap := 2 } with sym := [0x61#8, 0x62#8] }
     s.phase = .fill ∧ s.symLen = s.cfg.symCap) ∧
    (let s := filled [(0x61#8, 0xFFFFFFFF#32)]
     s.phase = .fill ∧ s.symLen ≠ s.cfg.symCap ∧ tableGet s.freq 0x61#8 = 0xFFFFFFFF#32) := by
  decide +kernel

theorem witness_LdfreqLoadsCapturedArg :
    let s := placeCommand 0x6103#32 { State.reset with arg := 5#32 }
    s.phase = .fill ∧ s.pending = some ⟨0x6103#32, 5#32⟩ := ⟨rfl, rfl⟩

theorem witness_ReadCommandsWriteResult :
    State.reset.phase ≠ .error ∧ ready1.phase = .ready ∧ (dec3 1#4 0#8).phase = .dec := by decide

theorem witness_PutsCountTheSequence :
    ready1.cfg.wf = true ∧ exec .clr ready1 = .next (after .clr ready1) ∧
      [0x61#8, 0x62#8, 0x61#8].length ≤ ready1.cfg.symCap :=
  ⟨by decide, exec_after _ _, by decide⟩

theorem witness_EmptyInputRaised :
    (State.reset.phase = .fill ∧ ∀ x : Byte, tableGet State.reset.freq x = 0#32) ∧
    ({ ready1 with sym := [] }.phase = .ready ∧ { ready1 with sym := [] }.sym = []) := by
  refine ⟨⟨rfl, fun x => ?_⟩, rfl, rfl⟩
  exact tableGet_tableOf 0#32 x

theorem counted_mem (s : State) (x : Byte) (h : tableGet s.freq x ≠ 0#32) : countedOf s.freq ≠ [] := by
  intro e
  have : x ∈ countedOf s.freq := by simpa [countedOf, mem_allSymbols] using h
  simp [e] at this

/-- The hypotheses of BuildCodesCountedSymbols and BuildPrefixFree, and of BuildDepthBound,
BuildCompleteCode, TreeWeightsAreExact and BuildDependsOnFrequenciesAlone. -/
theorem witness_Build :
    (filled counts3).phase = .fill ∧ tableGet (filled counts3).freq 0x61#8 ≠ 0#32 ∧
      countedOf (filled counts3).freq ≠ [] ∧ countedSymbols (filled counts3).freq ≠ [] :=
  ⟨rfl, by decide +kernel, counted_mem _ 0x61#8 (by decide +kernel), by decide +kernel⟩

/-- Both clauses of BuildDepthBound and BuildCompleteCode: two counted symbols, and one. -/
theorem witness_BuildCounts :
    (countedOf (filled [(0#8, 1#32), (0xFF#8, 1#32)]).freq).length = 2 ∧
      (countedOf (filled [(0xFF#8, 0xFFFFFFFF#32)]).freq).length = 1 := by
  have h2 : (filled [(0#8, 1#32), (0xFF#8, 1#32)]).freq =
      tableSet (tableSet (tableOf 0#32) 0#8 1#32) 0xFF#8 1#32 := rfl
  have h1 : (filled [(0xFF#8, 0xFFFFFFFF#32)]).freq =
      tableSet (tableOf 0#32) 0xFF#8 0xFFFFFFFF#32 := rfl
  have f2 : countedOf (filled [(0#8, 1#32), (0xFF#8, 1#32)]).freq =
      allSymbols.filter fun x => x == 0#8 || x == 0xFF#8 := by
    rw [h2]; unfold countedOf; congr 1; funext x
    by_cases hx : x = 0#8 <;> by_cases hy : x = 0xFF#8 <;> simp [tableGet_set, hx, hy]
  have f1 : countedOf (filled [(0xFF#8, 0xFFFFFFFF#32)]).freq =
      allSymbols.filter fun x => x == 0xFF#8 := by
    rw [h1]; unfold countedOf; congr 1; funext x
    by_cases hy : x = 0xFF#8 <;> simp [tableGet_set, hy]
  rw [f1, f2]
  decide +kernel

theorem witness_BuildSingleSymbol :
    let s := filled [(0xFF#8, 1#32)]
    s.phase = .fill ∧ tableGet s.freq 0xFF#8 ≠ 0#32 ∧ ∀ y, y ≠ 0xFF#8 → tableGet s.freq y = 0#32 := by
  have h : (filled [(0xFF#8, 1#32)]).freq = tableSet (tableOf 0#32) 0xFF#8 1#32 := rfl
  simp only [h]
  exact ⟨rfl, by simp, fun y hy => by simp [tableGet_set, hy]⟩

/-- The chunk index at its last legal value and at its first illegal one. -/
theorem witness_RdcbitsReadsChunk :
    (7#8 ≤ 7#8 ∧ ready1.phase = .ready) ∧ (7#8 < 8#8 ∧ State.reset.phase ≠ .error) := by decide

/-- The hypotheses of PackEmitsPackedStream and PackOutputLength. -/
theorem witness_Pack :
    ready3.phase = .ready ∧ ready3.sym ≠ [] ∧ ∀ x ∈ ready3.sym, tableGet ready3.code x ≠ [] := by
  decide +kernel

theorem witness_PackResultIsExact :
    ready1.cfg.wf = true ∧ ready1.Inv ∧ ready1.phase = .ready ∧
      exec .pack ready1 = .next (after .pack ready1) ∧ (after .pack ready1).phase = .ready :=
  ⟨by decide, ready1_inv, rfl, exec_after _ _, by decide +kernel⟩

/-- The first buffered symbol has a code, the second has none. -/
theorem witness_PackNoCode :
    let s := { ready3 with sym := [0x61#8, 0x64#8, 0x65#8] }
    s.phase = .ready ∧ s.sym = [0x61#8] ++ 0x64#8 :: [0x65#8] ∧
      (∀ y ∈ [0x61#8], tableGet s.code y ≠ []) ∧ tableGet s.code 0x64#8 = [] := by decide +kernel

/-- Headers at the ends of both ranges. -/
theorem witness_UnpkTakesHeader :
    ready1.phase = .ready ∧ 1 ≤ (1#8).toNat ∧ (8#8).toNat ≤ 8 ∧ (0#8).toNat = 0 ∧ 9 ≤ (9#8).toNat := by
  decide

/-- One witness for each clause: nothing held, and on the one-symbol table a byte scanned to its end
and an overflow. -/
theorem witness_UnpkDecodesHeldByte :
    ({ dec3 5#4 0#8 with dheldV := false }.phase = .dec ∧
      { dec3 5#4 0#8 with dheldV := false }.dheldV = false) ∧
    (scan (codeZero [false]) 1 [] (msbFirst 0x00#8)).overflow = false ∧
    (scan (codeZero [false]) 1 [] (msbFirst 0x80#8)).overflow = true :=
  ⟨⟨rfl, rfl⟩, scan_zeros 8, scan_one _⟩

/-- One witness for each clause: no header, no data, an overflow, a leftover, and a good end. -/
theorem witness_UendEndsStream :
    ready3.phase = .ready ∧ { dec3 5#4 0#8 with dheldV := false }.dheldV = false ∧
    (scan (codeZero [false]) 1 [] ((msbFirst 0x80#8).take 4)).overflow = true ∧
    (scan (codeZero [true, false]) 2 [] ((msbFirst 0x80#8).take 1)).cand = [true] ∧
    (scan (codeZero [true, false]) 2 [true] ((msbFirst 0x00#8).take 1)).cand = [] :=
  ⟨rfl, rfl, scan_one _, scan_leftover, scan_whole⟩

/-- The byte E7 in place of E0 (95 §2.7). -/
theorem witness_UendIgnoresPaddingBits :
    let s := dec3 5#4 0xE0#8
    s.phase = .dec ∧ s.dheldV = true ∧
      (msbFirst 0xE7#8).take (8 - s.dpad.toNat) = (msbFirst s.dheld).take (8 - s.dpad.toNat) ∧
      exec .uend s = .next (after .uend s) :=
  ⟨rfl, rfl, by decide, exec_after _ _⟩

theorem witness_DrstReturnsToReady :
    ready1.phase = .ready ∧ (dec3 1#4 0#8).phase = .dec ∧
      ((errorWith 0xB#32 true).phase = .error ∧ (errorWith 0xB#32 true).tv = true) ∧
      ((errorWith 0xB#32 false).phase = .error ∧ (errorWith 0xB#32 false).tv = false) := by decide

theorem witness_ReverseMapInvertsCodes :
    ready1.TableInv ∧ ready1.tv = true ∧ tableGet ready1.code 0#8 ≠ [] :=
  ⟨ready1_inv.2, rfl, by decide +kernel⟩

theorem witness_StreamDecodesLikeSource :
    ready1.phase = .ready ∧ 1 ≤ (8#8).toNat ∧ (8#8).toNat ≤ 8 := by decide

theorem witness_PackUnpackRoundTrip :
    ready1.Inv ∧ ready1.phase = .ready ∧ ready1.CountsSym ∧ ready1.sym ≠ [] :=
  ⟨ready1_inv, rfl, ready1_counts, by decide⟩

/-- A step that performs a command, with an invariant before it: the hypotheses of
PhaseTransitionsListed, StepKeepsInvariant, StepKeepsCounts and ParametersFixed. -/
theorem witness_Step :
    let s := placeCommand 0x6102#32 ready1
    s.Inv ∧ s.CountsSym ∧ step s = .next (afterStep s) ∧
      ∀ p x, s.pending = some p → decode p.word ≠ .ok (.ldfreq x) := by
  refine ⟨?_, ready1_counts, rfl, ?_⟩
  · obtain ⟨⟨h1, h2, h3, h4, h5, h6, h7, h8⟩, ⟨g1, g2, g3, g4⟩⟩ := ready1_inv
    exact ⟨⟨h1, h2, h3, h4, h5, h6, h7, h8⟩, ⟨g1, g2, g3, g4⟩⟩
  intro p x hp
  have hp' : some (⟨0x6102#32, 0#32⟩ : Pending) = some p := hp
  have hw : p.word = 0x6102#32 := congrArg Pending.word (Option.some.inj hp').symm
  have : decode 0x6102#32 = .ok (.put 0x61#8) := by decide
  simp [hw, this]

/-- Success in a phase other than ERROR, the exits from it, and a raise. -/
theorem witness_ResultOfEachCommand :
    (State.reset.phase ≠ .error ∧ (after .nop State.reset).phase ≠ .error) ∧
    (after .clr (errorWith 1#32 false)).phase ≠ .error ∧
    (after .drst (errorWith 0xB#32 true)).phase ≠ .error ∧
    (after .drst State.reset).phase = .error := by decide

/-- Each element is changed by some command. -/
theorem witness_OnlyTheseCommandsWrite :
    tableGet (after (.put 0x61#8) State.reset).freq 0x61#8 ≠ tableGet State.reset.freq 0x61#8 ∧
    (after (.put 0x61#8) State.reset).sym ≠ State.reset.sym ∧
    (after .clr ready1).tv ≠ ready1.tv ∧
    (after (.unpk 1#8) ready3).dpad ≠ ready3.dpad ∧
    (after .pack ready1).out ≠ ready1.out := by decide +kernel

/-- One witness for each clause, OUT at its depth and one above it. -/
theorem witness_CmdWriteCapturesOrWaits :
    (let s := { hostAt (.write 0 4 4#32) with out := List.replicate 16 0#8 }
     s.host = .write s.cfg.base 4 4#32 :: [] ∧ s.pending = none ∧ s.tail = false ∧
       s.out.length ≤ s.cfg.outDepth) ∧
    (hostAtBusy (.write 0 4 4#32)).pending ≠ none ∧
    (let s := { hostAt (.write 0 4 4#32) with out := List.replicate 17 0#8 }
     s.pending = none ∧ s.tail = false ∧ s.cfg.outDepth < s.out.length) := by decide

/-- The host moves and its access is at the offset: the hypotheses of ArgAndCtrlAccesses,
ReservedAndReadOnlyAccesses, RegisterReads, OutDataRead, HostAccessesChangeOnly and
NarrowAccessesRefused, with nothing in flight and with a command in flight. -/
theorem witness_HostAccess :
    (hostTurnIn (hostAt (.read 0x08 4)) ∧ (hostAt (.read 0x08 4)).busy = false) ∧
    (hostTurnIn (hostAtBusy (.read 0x08 4)) ∧ (hostAtBusy (.read 0x08 4)).busy = true) ∧
    (hostTurnIn (hostAt (.write 0x14 4 3#32)) ∧
      (hostAt (.write 0x14 4 3#32)).host = .write (0 + 0x14) 4 3#32 :: []) ∧
    (hostTurnIn (hostAt (.read 0x3C 4)) ∧ 0x3C ∈ [0x28, 0x2C, 0x30, 0x34, 0x38, 0x3C]) ∧
    (hostTurnIn (hostAtBusy (.read 0x18 4)) ∧ (hostAtBusy (.read 0x18 4)).out = 5#8 :: []) ∧
    (hostTurnIn (hostAt (.read 0x3F 4)) ∧ 0x3F % 4 ≠ 0) ∧ hostTurnIn (hostAt (.write 0 2 0#32)) :=
  ⟨⟨⟨rfl, rfl, rfl⟩, rfl⟩, ⟨⟨rfl, rfl, rfl⟩, rfl⟩, ⟨⟨rfl, rfl, rfl⟩, rfl⟩,
    ⟨⟨rfl, rfl, rfl⟩, by decide⟩, ⟨⟨rfl, rfl, rfl⟩, rfl⟩, ⟨⟨rfl, rfl, rfl⟩, by decide⟩,
    ⟨rfl, rfl, rfl⟩⟩

theorem hostTurnIn_hostAtBusy (op : HostOp) (h : hostWaits (hostAtBusy op) = false) :
    hostTurnIn (hostAtBusy op) :=
  ⟨rfl, by unfold blockMovesNext hostCanMove; rw [h]; rfl, rfl⟩

/-- A read of every register of RegisterReads, idle and with a command in flight. -/
theorem witness_RegisterReads (off : Nat) :
    (hostTurnIn (hostAt (.read (0 + off) 4)) ∧ (hostAt (.read (0 + off) 4)).busy = false ∧
      (hostAt (.read (0 + off) 4)).host =
        .read ((hostAt (.read (0 + off) 4)).cfg.base + off) 4 :: []) ∧
    (hostTurnIn (hostAtBusy (.read (0 + off) 4)) ∧ (hostAtBusy (.read (0 + off) 4)).busy = true ∧
      (hostAtBusy (.read (0 + off) 4)).host =
        .read ((hostAtBusy (.read (0 + off) 4)).cfg.base + off) 4 :: []) :=
  ⟨⟨hostTurnIn_hostAt _, rfl, rfl⟩, ⟨hostTurnIn_hostAtBusy _ rfl, rfl, rfl⟩⟩

/-- STATUS[7:4] after each kind of error, the numbers of R261. -/
theorem test_error_numbers :
    [ErrCode.none, .emptyInput, .corruptedStream, .illegalCommand, .sequence, .symOverflow, .noCode,
        .freqOverflow].map (fun e => ({ State.reset with err := e }.statusWord.extractLsb' 4 4).toNat) =
      [0, 1, 2, 3, 4, 5, 6, 7] := by decide

/-- A host access that leaves reset released. -/
theorem witness_HostAccessesChangeOnly :
    step (hostAt (.read 0x0C 4)) = .next (afterStep (hostAt (.read 0x0C 4))) ∧
      (afterStep (hostAt (.read 0x0C 4))).resetLine = false ∧ WindowReg.result ≠ .outData :=
  ⟨rfl, rfl, by decide⟩

/-- Reset held, with `ops` still to come. -/
def heldReset (ops : List HostOp) : State := { State.reset with resetLine := true, host := ops }

/-- One witness for each clause: the assertion, an empty list, a second assertion, an access of each
kind, and the release. -/
theorem witness_ResetFromAnyState :
    ((hostAt .assertReset).resetLine = false ∧ blockMovesNext (hostAt .assertReset) = false ∧
      (hostAt .assertReset).host = .assertReset :: []) ∧
    ((heldReset []).resetLine = true ∧ (heldReset []).host = []) ∧
    (heldReset [.assertReset]).host = .assertReset :: [] ∧
    (∀ op ∈ [HostOp.write 0 4 4#32, .read 0x18 4, .wait, .drain],
      op ≠ .assertReset ∧ op ≠ .releaseReset ∧ (heldReset [op]).host = op :: []) ∧
    (heldReset [.releaseReset]).host = .releaseReset :: [] := by decide

theorem witness_RegistersAfterReset :
    State.reset = State.resetWith Config.reference ∧ WindowReg.result ≠ .status ∧
      WindowReg.result ≠ .id ∧ WindowReg.result ≠ .cap := ⟨rfl, by decide, by decide, by decide⟩

/-- A host that waits while a command is in flight. -/
theorem witness_WaitTerminates :
    (hostAtBusy .wait).resetLine = false ∧ (hostAtBusy .wait).cfg.windowOrdered = true ∧
      (hostAtBusy .wait).host = .wait :: [] := ⟨rfl, rfl, rfl⟩

end Sys2Proof.Tests
end

section
/-! SUPPORT. Three views of the state with what keeps them, and the inductions over what a command
and a step can do. The views are tuples, so that "keeps" is an equation. -/

namespace Sys2Proof.Machine

/-! ### Views of the state -/

/-- What no command writes: ARG, CTRL, the parameters, the command in flight, and everything of the
host and of the model (R41, R44, R304). -/
def State.hostSide (s : State) :=
  (s.arg, s.ctrl, s.cfg, s.pending, s.tail, s.resetLine, s.host, s.reads, s.delay, s.draws)

/-- What PUT, LDFREQ, BUILD and CLR alone write: TV, FREQ, SYM, CODE and MAXLEN (R84). -/
def State.tableSide (s : State) := (s.tv, s.freq, s.sym, s.code, s.maxLen)

/-- All that the invariants of R52 speak of. -/
def State.invariantSide (s : State) :=
  (s.cfg, s.phase, s.dpad, s.dheldV, s.cand, s.err, s.errInfo, s.tableSide)

theorem tableSide_eq {s t : State} (h : t.invariantSide = s.invariantSide) :
    t.tableSide = s.tableSide := by
  simp only [State.invariantSide, Prod.mk.injEq] at h
  obtain ⟨-, -, -, -, -, -, -, htable⟩ := h
  exact htable

/-- A fed bit string keeps the host's side and the table's, whether it goes on or raises (R211). -/
theorem feedAll_keeps {opc : Byte} {ts : Bits} {s t : State}
    (h : feedAll opc ts s = .goes t ∨ feedAll opc ts s = .raised t) :
    t.hostSide = s.hostSide ∧ t.tableSide = s.tableSide := by
  rcases h with h | h
  · obtain ⟨l, e⟩ := feedAll_goes h
    rw [e]; exact ⟨rfl, rfl⟩
  · obtain ⟨l, e⟩ := feedAll_raised h
    rw [e]; exact ⟨rfl, rfl⟩

theorem unpkRule_keeps (b : Byte) (s : State) :
    (unpkRule b s).hostSide = s.hostSide ∧ (unpkRule b s).tableSide = s.tableSide := by
  unfold unpkRule
  split
  · rcases unpkHeader_cases b s with ⟨_, _, e⟩ | ⟨_, e⟩ <;> rw [e] <;> exact ⟨rfl, rfl⟩
  · rcases unpkData_cases b s with ⟨_, e⟩ | ⟨_, t, hf, e⟩ | ⟨_, t, hf, e⟩ <;> rw [e]
    · exact ⟨rfl, rfl⟩
    · exact feedAll_keeps (t := t) (.inl hf)
    · exact feedAll_keeps (.inr hf)

theorem uendRule_keeps (s : State) :
    (uendRule s).hostSide = s.hostSide ∧ (uendRule s).tableSide = s.tableSide := by
  rcases uendRule_cases s with ⟨_, e⟩ | ⟨_, _, e⟩ |
    ⟨_, _, ⟨t, hf, e⟩ | ⟨t, hf, _, e⟩ | ⟨t, hf, _, e⟩⟩ <;> rw [e]
  · exact ⟨rfl, rfl⟩
  · exact ⟨rfl, rfl⟩
  · exact feedAll_keeps (.inr hf)
  · exact feedAll_keeps (t := t) (.inl hf)
  · exact feedAll_keeps (t := t) (.inl hf)

/-- No command's rule writes anything of the host's side. -/
theorem ruleOf_hostSide (i : Instr) (s : State) : (ruleOf i s).hostSide = s.hostSide := by
  cases i with
  | put x =>
    rcases putRule_cases x s with ⟨_, e⟩ | ⟨_, _, e⟩ | ⟨_, _, e⟩ <;> rw [ruleOf, e] <;> rfl
  | build => rcases buildRule_cases s with ⟨_, e⟩ | ⟨_, e⟩ <;> rw [ruleOf, e] <;> rfl
  | pack =>
    rcases packRule_cases s with ⟨_, e⟩ | ⟨_, _, _, _, _, _, e⟩ | ⟨_, _, e⟩ <;>
      rw [ruleOf, e] <;> rfl
  | unpk b => exact (unpkRule_keeps b s).1
  | uend => exact (uendRule_keeps s).1
  | nop | clr | ldfreq | rdfreq | rdclen | rdcbits | drst => rfl

/-! ### What a command and a step can do -/

/-- The command acts in the state, by the phases table of R241 and its ERROR column. -/
def acts (i : Instr) (s : State) : Prop :=
  (s.phase ≠ .error ∧ actsIn i s.phase = true) ∨ (s.phase = .error ∧ actsInError i s = true)

theorem phase_fill_of_acts {i : Instr} {s : State} (ha : acts i s)
    (hi : ∀ p, actsIn i p = (p == .fill)) (he : actsInError i s = false) : s.phase = .fill := by
  rcases ha with ⟨_, ha⟩ | ⟨_, ha⟩
  · simpa [hi] using ha
  · simp [he] at ha

theorem phase_ready_or_dec_of_acts {i : Instr} {s : State} (ha : acts i s)
    (hi : ∀ p, actsIn i p = (p == .ready || p == .dec)) (he : actsInError i s = false) :
    s.phase = .ready ∨ s.phase = .dec := by
  rcases ha with ⟨_, ha⟩ | ⟨_, ha⟩
  · simpa [hi] using ha
  · simp [he] at ha

/-- A property of the state that an ignored command leaves, and that SEQUENCE, ILLEGAL_COMMAND and
the command's rule where it acts establish, holds after the command. -/
theorem exec_induction {P : State → Prop} {i : Instr} {s t : State} (h : exec i s = .next t)
    (hign : P s) (hraise : ∀ opc e, e ≠ .none → P (raise opc e .none 0#8 s))
    (hrule : acts i s → P (ruleOf i s)) : P t := by
  cases hw : i.wellFormed with
  | false =>
    obtain rfl := Host.Outcome.next.inj ((exec_illFormed hw s).symm.trans h)
    rcases illegalWord_cases i.opcode s with ⟨_, e⟩ | ⟨_, e⟩ <;> rw [e]
    · exact hign
    · exact hraise _ _ nofun
  | true =>
    obtain rfl := Host.Outcome.next.inj ((exec_eq_gated hw s).symm.trans h)
    exact gated_induction (fun hp ha => hrule (.inr ⟨hp, ha⟩)) (fun _ => hign)
      (fun hp ha => hrule (.inl ⟨hp, ha⟩)) (fun _ => hraise _ _ nofun)

/-- The same for a command word (R240). -/
theorem dispatchWord_induction {P : State → Prop} {w : Word} {s t : State}
    (h : dispatchWord w s = .next t) (hign : P s)
    (hraise : ∀ opc e, e ≠ .none → P (raise opc e .none 0#8 s))
    (hrule : ∀ i, decode w = .ok i → acts i s → P (ruleOf i s)) : P t := by
  rcases dispatchWord_next h with ⟨i, hi, he⟩ | ⟨_, rfl⟩
  · exact exec_induction he hign hraise (hrule i hi)
  · rcases illegalWord_cases (fieldOpc w) s with ⟨_, e⟩ | ⟨_, e⟩ <;> rw [e]
    · exact hign
    · exact hraise _ _ nofun

/-- An invariant of R52 is kept by a step once the dispatch of a pending word keeps it: every other
step leaves what the invariants speak of, or puts it at its values after reset. -/
theorem step_induction {P : State → Prop}
    (hcongr : ∀ {s t : State}, P s → t.invariantSide = s.invariantSide → P t)
    (hreset : ∀ p, P (.resetWith p)) {s t : State} (hs : P s)
    (hperform : ∀ p u, s.pending = some p → dispatchWord p.word s = .next u → P u)
    (h : step s = .next t) : P t := by
  rcases step_next h with ⟨_, rfl | ⟨rest, rfl⟩ | ⟨rest, rfl⟩⟩ |
    ⟨_, _, ⟨p, u, hp, hu, rfl⟩ | ⟨_, rfl⟩⟩ | ⟨_, _, ⟨_, rfl⟩ | hc⟩
  · exact hs
  · exact hcongr (hreset s.cfg) rfl
  · exact hcongr hs rfl
  · exact hcongr (hperform p u hp hu) rfl
  · exact hcongr hs rfl
  · exact hs
  · cases hc with
    | reset => exact hcongr (hreset s.cfg) rfl
    | ignored | arg | ctrl | cmd | read | pop => exact hcongr hs rfl

/-- Settles O7: behind the gate no command's rule writes anything of the host's side. -/
theorem everyCommandAnswersNext : Obligations.EveryCommandAnswersNext := by
  intro i s
  obtain ⟨t, ht⟩ : ∃ t, exec i s = .next t := by
    cases hw : i.wellFormed with
    | false => exact ⟨_, exec_illFormed hw s⟩
    | true => exact ⟨_, exec_eq_gated hw s⟩
  have hkeeps : t.hostSide = s.hostSide :=
    exec_induction (P := fun t => t.hostSide = s.hostSide) ht rfl (fun _ _ _ => rfl)
      fun _ => ruleOf_hostSide i s
  refine ⟨t, ht, ?_⟩
  simpa only [State.hostSide, Prod.mk.injEq] using hkeeps

end Sys2Proof.Machine
end

section
/-! SUPPORT. R52: the invariant of the phases and the table, phase by phase, and that every step keeps
it. -/

namespace Sys2Proof.Machine

/-! ### The invariant of the phases, phase by phase -/

theorem phaseInv_iff_of_fill {s : State} (hp : s.phase = .fill) :
    s.PhaseInv ↔ (s.tv = false ∧ s.maxLen = 0#8 ∧ s.dpad = 0#4 ∧ s.dheldV = false) ∧ s.cand = [] ∧
      s.err = .none ∧ s.errInfo = 0#32 ∧ s.symLen ≤ s.cfg.symCap := by
  constructor
  · intro h
    exact ⟨h.fill hp, h.fillCand hp, h.error.1 (by simp [hp]), h.errInfo (by simp [hp]), h.symLen⟩
  · rintro ⟨hf, hc, he, hi, hcap⟩
    constructor <;> simp [hp, hf, hc, he, hi, hcap]

theorem phaseInv_iff_of_ready {s : State} (hp : s.phase = .ready) :
    s.PhaseInv ↔ (s.tv = true ∧ 1#8 ≤ s.maxLen) ∧
      (s.dpad = 0#4 ∧ s.dheldV = false ∧ s.cand = []) ∧
      s.err = .none ∧ s.errInfo = 0#32 ∧ s.symLen ≤ s.cfg.symCap := by
  constructor
  · intro h
    exact ⟨h.table (.inl hp), h.ready hp, h.error.1 (by simp [hp]), h.errInfo (by simp [hp]),
      h.symLen⟩
  · rintro ⟨ht, hr, he, hi, hcap⟩
    constructor <;> simp [hp, ht, hr, he, hi, hcap]

theorem phaseInv_iff_of_dec {s : State} (hp : s.phase = .dec) :
    s.PhaseInv ↔ (s.tv = true ∧ 1#8 ≤ s.maxLen) ∧
      (1#4 ≤ s.dpad ∧ s.dpad ≤ 8#4 ∧ s.cand.length < s.maxLen.toNat) ∧
      s.err = .none ∧ s.errInfo = 0#32 ∧ s.symLen ≤ s.cfg.symCap := by
  constructor
  · intro h
    exact ⟨h.table (.inr hp), h.dec hp, h.error.1 (by simp [hp]), h.errInfo (by simp [hp]),
      h.symLen⟩
  · rintro ⟨ht, hd, he, hi, hcap⟩
    constructor <;> simp [hp, ht, hd, he, hi, hcap]

theorem phaseInv_iff_of_error {s : State} (hp : s.phase = .error) :
    s.PhaseInv ↔ s.err ≠ .none ∧ s.symLen ≤ s.cfg.symCap := by
  constructor
  · intro h
    exact ⟨fun he => h.error.2 he hp, h.symLen⟩
  · rintro ⟨he, hcap⟩
    constructor <;> simp [hp, he, hcap]

/-! ### What the invariant depends on, and its base case -/

theorem State.TableInv.congr {s t : State} (hs : s.TableInv) (h : t.tableSide = s.tableSide) :
    t.TableInv := by
  simp only [State.tableSide, Prod.mk.injEq] at h
  obtain ⟨htv, hfreq, -, hcode, hmax⟩ := h
  obtain ⟨hcounted, hderived, hlongest, hempty⟩ := hs
  constructor <;> simpa only [htv, hfreq, hcode, hmax]

theorem State.PhaseInv.congr {s t : State} (hs : s.PhaseInv)
    (h : t.invariantSide = s.invariantSide) : t.PhaseInv := by
  simp only [State.invariantSide, State.tableSide, Prod.mk.injEq] at h
  obtain ⟨hcfg, hphase, hdpad, hheld, hcand, herr, hinfo, htv, -, hsym, -, hmax⟩ := h
  obtain ⟨h1, h2, h3, h4, h5, h6, h7, h8⟩ := hs
  constructor <;>
    simpa only [State.symLen, hcfg, hphase, hdpad, hheld, hcand, herr, hinfo, htv, hsym, hmax]

theorem State.Inv.congr {s t : State} (hs : s.Inv) (h : t.invariantSide = s.invariantSide) :
    t.Inv := by
  exact ⟨hs.1.congr h, hs.2.congr (tableSide_eq h)⟩

/-- With TV = 0 the table's part of the invariant is that there is no table. -/
theorem tableInv_of_no_table {s : State} (htv : s.tv = false) (hcode : s.code = tableOf [])
    (hmax : s.maxLen = 0#8) : s.TableInv := by
  constructor <;> simp [htv, hcode, hmax]

theorem resetWith_inv (p : Params) : (State.resetWith p).Inv :=
  ⟨(phaseInv_iff_of_fill rfl).2 ⟨⟨rfl, rfl, rfl, rfl⟩, rfl, rfl, rfl, Nat.zero_le _⟩,
    tableInv_of_no_table rfl rfl rfl⟩

/-- Settles O54: after reset the phase is FILL and there is no table. -/
theorem resetHasInvariant : Obligations.ResetHasInvariant := resetWith_inv

/-- MAXLEN is at least 1 where a table exists (R173). -/
theorem one_le_maxLen {s : State} (h : s.TableInv) (htv : s.tv = true) : 1 ≤ s.maxLen.toNat := by
  have hkeys : countedKeys s.freq ≠ [] := by
    intro e
    exact h.counted htv (by rw [countedSymbols_eq, e]; rfl)
  rw [h.longest htv, h.derived htv]
  exact (maxCodeLen_codeTable hkeys).1

/-! ### The rules keep the invariant -/

/-- The invariant asks nothing of the decoder in ERROR, and a code other than 0 (R52 item 5), so that
a raise establishes the invariant where the table and the buffer are as they were. -/
theorem raise_inv {s u : State} {opc : Byte} {e : ErrCode} {d : Detail} {x : Byte} (h : s.Inv)
    (hcfg : u.cfg = s.cfg) (htable : u.tableSide = s.tableSide) (he : e ≠ .none) :
    (raise opc e d x u).Inv := by
  have hsym : u.sym = s.sym := congrArg (·.2.2.1) htable
  refine ⟨(phaseInv_iff_of_error rfl).2 ⟨he, ?_⟩, h.2.congr htable⟩
  simpa [State.symLen, hsym, hcfg] using h.1.symLen

theorem leaveToFill_inv (s : State) : (leaveToFill s).Inv :=
  (resetWith_inv s.cfg).congr rfl

theorem leaveToReady_inv {s : State} (h : s.Inv) (htv : s.tv = true) : (leaveToReady s).Inv :=
  ⟨(phaseInv_iff_of_ready rfl).2
    ⟨⟨htv, one_le_maxLen (s := s) h.2 htv⟩, ⟨rfl, rfl, rfl⟩, rfl, rfl, h.1.symLen⟩,
    h.2.congr rfl⟩

theorem putRule_inv {s : State} (x : Byte) (h : s.Inv) (hp : s.phase = .fill) :
    (putRule x s).Inv := by
  obtain ⟨hfill, hcand, herr, hinfo, hcap⟩ := (phaseInv_iff_of_fill hp).1 h.1
  obtain ⟨hcode, hmax⟩ := h.2.empty hfill.1
  rcases putRule_cases x s with ⟨_, e⟩ | ⟨_, _, e⟩ | ⟨hne, _, e⟩ <;> rw [e]
  · exact raise_inv h rfl rfl nofun
  · exact raise_inv h rfl rfl nofun
  · refine ⟨(phaseInv_iff_of_fill (by exact hp)).2 ⟨hfill, hcand, herr, hinfo, ?_⟩,
      tableInv_of_no_table hfill.1 hcode hmax⟩
    simp only [State.symLen, List.length_append, List.length_singleton] at hne hcap ⊢
    omega

theorem ldfreqRule_inv {s : State} (x : Byte) (h : s.Inv) (hp : s.phase = .fill) :
    (ldfreqRule x s).Inv := by
  obtain ⟨hfill, hrest⟩ := (phaseInv_iff_of_fill hp).1 h.1
  obtain ⟨hcode, hmax⟩ := h.2.empty hfill.1
  exact ⟨(phaseInv_iff_of_fill (by exact hp)).2 ⟨hfill, hrest⟩,
    tableInv_of_no_table hfill.1 hcode hmax⟩

theorem buildRule_inv {s : State} (h : s.Inv) (hp : s.phase = .fill) : (buildRule s).Inv := by
  obtain ⟨⟨_, _, hdpad, hheld⟩, hcand, herr, hinfo, hcap⟩ := (phaseInv_iff_of_fill hp).1 h.1
  rcases buildRule_cases s with ⟨_, e⟩ | ⟨hkeys, e⟩ <;> rw [e]
  · exact raise_inv h rfl rfl nofun
  · obtain ⟨hlow, hhigh⟩ := maxCodeLen_codeTable hkeys
    have hmax : (BitVec.ofNat 8 (maxCodeLen (codeTable s.freq))).toNat =
        maxCodeLen (codeTable s.freq) := by
      rw [BitVec.toNat_ofNat]
      exact Nat.mod_eq_of_lt (by omega)
    have hcounted : countedSymbols s.freq ≠ [] := by
      rwa [countedSymbols_eq, ne_eq, List.map_eq_nil_iff]
    refine ⟨(phaseInv_iff_of_ready rfl).2
      ⟨⟨rfl, ?_⟩, ⟨hdpad, hheld, hcand⟩, herr, hinfo, hcap⟩,
      ⟨fun _ => hcounted, fun _ => rfl, fun _ => hmax, nofun⟩⟩
    rwa [BitVec.le_def, hmax]

theorem packRule_inv {s : State} (h : s.Inv) : (packRule s).Inv := by
  rcases packRule_cases s with ⟨_, e⟩ | ⟨_, _, _, _, _, _, e⟩ | ⟨_, _, e⟩ <;> rw [e]
  · exact raise_inv h rfl rfl nofun
  · exact raise_inv h rfl rfl nofun
  · exact h.congr rfl

/-- The matcher never leaves a candidate of MAXLEN bits when it goes on (R211). -/
theorem feedAll_cand_lt {opc : Byte} {ts : Bits} {s t : State} (h : feedAll opc ts s = .goes t)
    (hs : s.cand.length < s.maxLen.toNat) : t.cand.length < t.maxLen.toNat := by
  induction ts generalizing s with
  | nil =>
    obtain rfl := Flow.goes.inj h
    exact hs
  | cons b ts ih =>
    simp only [feedAll] at h
    rcases feed_cases opc b s with ⟨x, _, e⟩ | ⟨_, _, e⟩ | ⟨_, hne, e⟩ <;> rw [e] at h
    · exact ih h (Nat.zero_lt_of_lt hs)
    · cases h
    · refine ih h ?_
      simp only [List.length_append, List.length_singleton] at hne ⊢
      omega

theorem feedAll_goes_inv {opc : Byte} {ts : Bits} {s t : State} (h : s.Inv) (hp : s.phase = .dec)
    (hf : feedAll opc ts s = .goes t) : t.phase = .dec ∧ t.Inv := by
  obtain ⟨htable, ⟨hlow, hhigh, hlt⟩, hrest⟩ := (phaseInv_iff_of_dec hp).1 h.1
  have hcand := feedAll_cand_lt hf hlt
  obtain ⟨l, e⟩ := feedAll_goes hf
  rw [e] at hcand ⊢
  exact ⟨hp, (phaseInv_iff_of_dec (by exact hp)).2 ⟨htable, ⟨hlow, hhigh, hcand⟩, hrest⟩,
    h.2.congr rfl⟩

theorem feedAll_raised_inv {opc : Byte} {ts : Bits} {s t : State} (h : s.Inv)
    (hf : feedAll opc ts s = .raised t) : t.Inv := by
  obtain ⟨l, e⟩ := feedAll_raised hf
  rw [e]
  exact raise_inv h rfl rfl nofun

/-- In DEC the invariant does not depend on the held byte. -/
theorem hold_inv {s : State} (b : Byte) (h : s.Inv) (hp : s.phase = .dec) :
    { s with dheld := b, dheldV := true }.Inv :=
  ⟨(phaseInv_iff_of_dec (by exact hp)).2 ((phaseInv_iff_of_dec hp).1 h.1), h.2.congr rfl⟩

theorem unpkHeader_inv {s : State} (b : Byte) (h : s.Inv) (hp : s.phase = .ready) :
    (unpkHeader b s).Inv := by
  obtain ⟨⟨htv, hmax⟩, _, hrest⟩ := (phaseInv_iff_of_ready hp).1 h.1
  rcases unpkHeader_cases b s with ⟨hlow, hhigh, e⟩ | ⟨_, e⟩ <;> rw [e]
  · refine ⟨(phaseInv_iff_of_dec rfl).2
      ⟨⟨htv, hmax⟩, ⟨?_, ?_, one_le_maxLen (s := s) h.2 htv⟩, hrest⟩, h.2.congr rfl⟩
    · bv_omega
    · bv_omega
  · exact raise_inv h rfl rfl nofun

theorem unpkData_inv {s : State} (b : Byte) (h : s.Inv) (hp : s.phase = .dec) :
    (unpkData b s).Inv := by
  rcases unpkData_cases b s with ⟨_, e⟩ | ⟨_, t, hf, e⟩ | ⟨_, t, hf, e⟩ <;> rw [e]
  · exact hold_inv b h hp
  · obtain ⟨htp, ht⟩ := feedAll_goes_inv h hp hf
    exact hold_inv b ht htp
  · exact feedAll_raised_inv h hf

theorem unpkRule_inv {s : State} (b : Byte) (h : s.Inv) (hp : s.phase = .ready ∨ s.phase = .dec) :
    (unpkRule b s).Inv := by
  rcases hp with hp | hp
  · rw [unpkRule, if_pos hp]
    exact unpkHeader_inv b h hp
  · rw [unpkRule, if_neg (by simp [hp])]
    exact unpkData_inv b h hp

theorem uendRule_inv {s : State} (h : s.Inv) (hp : s.phase = .ready ∨ s.phase = .dec) :
    (uendRule s).Inv := by
  rcases uendRule_cases s with ⟨_, e⟩ | ⟨_, _, e⟩ |
    ⟨hne, _, ⟨t, hf, e⟩ | ⟨t, hf, _, e⟩ | ⟨t, hf, _, e⟩⟩ <;> rw [e]
  · exact raise_inv h rfl rfl nofun
  · exact raise_inv h rfl rfl nofun
  · exact feedAll_raised_inv h hf
  · obtain ⟨_, ht⟩ := feedAll_goes_inv h (hp.resolve_left hne) hf
    exact raise_inv ht rfl rfl nofun
  · obtain ⟨htp, ht⟩ := feedAll_goes_inv h (hp.resolve_left hne) hf
    obtain ⟨htable, _, hrest⟩ := (phaseInv_iff_of_dec htp).1 ht.1
    exact ⟨(phaseInv_iff_of_ready rfl).2 ⟨htable, ⟨rfl, rfl, rfl⟩, hrest⟩,
      ht.2.congr rfl⟩

/-- Where DRST acts there is a table: READY and DEC have one, and in ERROR it asks for one (R275). -/
theorem tv_of_acts_drst {s : State} (h : s.Inv) (ha : acts .drst s) : s.tv = true := by
  rcases ha with ⟨_, ha⟩ | ⟨_, htv⟩
  · exact (h.1.table (by simpa [actsIn] using ha)).1
  · exact htv

/-- Every command's rule keeps the invariant where the command acts. -/
theorem ruleOf_inv {i : Instr} {s : State} (h : s.Inv) (ha : acts i s) : (ruleOf i s).Inv := by
  cases i with
  | clr => exact leaveToFill_inv s
  | put x => exact putRule_inv x h (phase_fill_of_acts ha (fun _ => rfl) rfl)
  | ldfreq x => exact ldfreqRule_inv x h (phase_fill_of_acts ha (fun _ => rfl) rfl)
  | build => exact buildRule_inv h (phase_fill_of_acts ha (fun _ => rfl) rfl)
  | pack => exact packRule_inv h
  | unpk b => exact unpkRule_inv b h (phase_ready_or_dec_of_acts ha (fun _ => rfl) rfl)
  | uend => exact uendRule_inv h (phase_ready_or_dec_of_acts ha (fun _ => rfl) rfl)
  | drst => exact leaveToReady_inv h (tv_of_acts_drst h ha)
  | nop | rdfreq | rdclen | rdcbits => exact h.congr rfl

/-- Settles O55: of the agents' steps only the dispatch of a pending word matters, and there every
raise and every rule that acts keeps the invariant. -/
theorem stepKeepsInvariant : Obligations.StepKeepsInvariant := by
  intro s t hs h
  refine step_induction State.Inv.congr resetWith_inv hs (fun p u _ hu => ?_) h
  exact dispatchWord_induction hu hs (fun _ _ he => raise_inv hs rfl rfl he)
    fun _ _ ha => ruleOf_inv hs ha

end Sys2Proof.Machine
end

section
/-! SUPPORT. R52 item 6: FREQ counts SYM. -/

namespace Sys2Proof.Machine

theorem State.CountsSym.congr {s t : State} (hs : s.CountsSym) (h : t.tableSide = s.tableSide) :
    t.CountsSym := by
  simp only [State.tableSide, Prod.mk.injEq] at h
  obtain ⟨-, hfreq, hsym, -, -⟩ := h
  simpa only [State.CountsSym, hfreq, hsym] using hs

theorem countsSym_of_empty {s : State} (hfreq : s.freq = tableOf 0#32) (hsym : s.sym = []) :
    s.CountsSym := by
  intro x
  simp [hfreq, hsym]

/-- PUT appends the symbol it counts, and never lets a count wrap (R131). -/
theorem putRule_countsSym {s : State} (x : Byte) (h : s.CountsSym) : (putRule x s).CountsSym := by
  rcases putRule_cases x s with ⟨_, e⟩ | ⟨_, _, e⟩ | ⟨_, hmax, e⟩ <;> rw [e]
  · exact h.congr rfl
  · exact h.congr rfl
  · intro y
    have hy := h y
    by_cases hyx : y = x
    · subst hyx
      simp only [tableGet_set_self, List.count_append, List.count_singleton_self, ← hy]
      bv_omega
    · simp [tableGet_set_ne _ _ hyx, hy, Ne.symm hyx]

/-- Every rule but LDFREQ's keeps FREQ counting SYM (R132). -/
theorem ruleOf_countsSym {i : Instr} {s : State} (h : s.CountsSym) (hi : ∀ x, i ≠ .ldfreq x) :
    (ruleOf i s).CountsSym := by
  cases i with
  | clr => exact countsSym_of_empty rfl rfl
  | put x => exact putRule_countsSym x h
  | ldfreq x => exact absurd rfl (hi x)
  | build =>
    rcases buildRule_cases s with ⟨_, e⟩ | ⟨_, e⟩ <;> rw [ruleOf, e] <;> exact h
  | pack =>
    rcases packRule_cases s with ⟨_, e⟩ | ⟨_, _, _, _, _, _, e⟩ | ⟨_, _, e⟩ <;>
      rw [ruleOf, e] <;> exact h
  | unpk b => exact h.congr (unpkRule_keeps b s).2
  | uend => exact h.congr (uendRule_keeps s).2
  | nop | rdfreq | rdclen | rdcbits | drst => exact h

/-- Settles O56: the word a step performs is no LDFREQ, and every other rule keeps the counts. -/
theorem stepKeepsCounts : Obligations.StepKeepsCounts := by
  intro s t hs h hno
  refine step_induction (P := State.CountsSym) (fun hs e => hs.congr (tableSide_eq e))
    (fun _ => countsSym_of_empty rfl rfl) hs (fun p u hp hu => ?_) h
  exact dispatchWord_induction hu hs (fun _ _ _ => hs)
    fun i hi _ => ruleOf_countsSym hs fun x e => hno p x hp (e ▸ hi)

end Sys2Proof.Machine
end

section
/-! SUPPORT. What the host reads: the fields of STATUS (R46) and an OUT_DATA read (R48, R81). -/

namespace Sys2Proof.Machine

open Sys2Proof.Spec

theorem inFlight_iff {s : State} : s.inFlight = true ↔ s.pending ≠ none ∨ s.tail = true := by
  simp [State.inFlight, Option.isSome_iff_ne_none]

theorem inFlight_eq_false {s : State} (hp : s.pending = none) (ht : s.tail = false) :
    s.inFlight = false := by
  simp [State.inFlight, hp, ht]

theorem busy_iff {s : State} :
    s.busy = true ↔ s.pending ≠ none ∨ s.tail = true ∨ s.cfg.outDepth < s.out.length := by
  simp only [State.busy, Bool.or_eq_true, inFlight_iff, decide_eq_true_eq, or_assoc]

/-! ### STATUS -/

/-- STATUS with its width written as the sum of its fields' widths, so that the lemmas about
concatenation apply. -/
def State.statusFields (s : State) : BitVec (1 + 9 + 1 + 1 + 4 + 8 + 4 + 1 + 3) :=
  BitVec.ofBool s.busy ++ 0#9 ++ BitVec.ofBool s.outNe ++ BitVec.ofBool s.dheldV ++ s.dpad ++
    s.maxLen ++ s.err.bits ++ BitVec.ofBool s.tv ++ s.phase.bits

theorem extractLsb'_statusWord (s : State) (start len : Nat) :
    s.statusWord.extractLsb' start len = s.statusFields.extractLsb' start len := rfl

/-- Each field of STATUS at its place (R46). -/
theorem statusWord_fields (s : State) :
    s.statusWord.extractLsb' 0 3 = s.phase.bits ∧
    s.statusWord.extractLsb' 3 1 = BitVec.ofBool s.tv ∧
    s.statusWord.extractLsb' 4 4 = s.err.bits ∧
    s.statusWord.extractLsb' 8 8 = s.maxLen ∧
    s.statusWord.extractLsb' 16 4 = s.dpad ∧
    s.statusWord.extractLsb' 20 1 = BitVec.ofBool s.dheldV ∧
    s.statusWord.extractLsb' 21 1 = BitVec.ofBool s.outNe ∧
    s.statusWord.extractLsb' 22 9 = 0#9 ∧
    s.statusWord.extractLsb' 31 1 = BitVec.ofBool s.busy := by
  simp (disch := decide) only [extractLsb'_statusWord, State.statusFields,
    BitVec.extractLsb'_append_eq_of_le, BitVec.extractLsb'_append_eq_right,
    BitVec.extractLsb'_eq_self, Nat.reduceSub, and_self]

/-- A field of one bit is that bit of the word. -/
theorem getLsbD_of_extractLsb'_one {w : Word} {i : Nat} {b : Bool}
    (h : w.extractLsb' i 1 = BitVec.ofBool b) : w.getLsbD i = b := by
  simpa using congrArg (·.getLsbD 0) h

theorem readReg_status_keeps (s : State) : { (readReg .status s).2 with draws := s.draws } = s := by
  simp only [readReg, readStatus]
  split <;> rfl

/-- Settles O47: each field of STATUS stands at its place, and the read's only draw is set aside. -/
theorem statusFields : Obligations.StatusFields := by
  intro s
  obtain ⟨hphase, htv, herr, hmax, hdpad, hheld, hout, hres, hbusy⟩ := statusWord_fields s
  refine ⟨?_, getLsbD_of_extractLsb'_one htv, ?_, hmax, hdpad, getLsbD_of_extractLsb'_one hheld, ?_,
    hres, ?_, readReg_status_keeps s⟩
  · rw [hphase]; cases s.phase <;> rfl
  · rw [herr]; cases s.err <;> rfl
  · rw [getLsbD_of_extractLsb'_one hout]
    cases h : s.out <;> simp [State.outNe, h]
  · rw [getLsbD_of_extractLsb'_one hbusy]
    exact busy_iff

/-! ### Reads as steps -/

/-- The state a host action acts on: the action is taken off the list, and counted among those that
go before the block's step. -/
def hostTaken (rest : List HostOp) (s : State) : State :=
  { s with host := rest, delay := s.delay - 1 }

/-- The host's turn to read a register of the window: the read is made on the state with the access
taken, and noted. -/
theorem step_read {s : State} {rest : List HostOp} {off : Nat} (hs : hostTurnIn s)
    (hhost : s.host = .read (s.cfg.base + off) 4 :: rest) (hoff : off < 0x40) (h4 : off % 4 = 0) :
    step s = .next
      { (readReg (regAt off) (hostTaken rest s)).2 with
        reads := s.reads ++
          [⟨regAt off, (readReg (regAt off) (hostTaken rest s)).1⟩] } := by
  obtain ⟨hreset, hblock, hordered⟩ := hs
  have hwaits : hostWaits s = false := by simp [hostWaits, hhost]
  have htarget := windowTarget_in hordered hoff h4
  simp [step, hreset, hblock, hostTurn, hhost, hwaits, hostMove, hostRead, htarget, hostTaken]

theorem readOutData_empty {s : State} (h : s.out = []) : readReg .outData s = (0#32, s) := by
  simp [readReg, readOutData, h]

theorem readOutData_idle {s : State} {b : Byte} {q : List Byte} (h : s.out = b :: q)
    (hidle : s.inFlight = false) : readReg .outData s = (outDataWord b, { s with out := q }) := by
  simp [readReg, readOutData, h, hidle]

/-- With a command in flight the read pops or returns 0, as the draw says (R81). -/
theorem readOutData_inFlight {s : State} {b : Byte} {q : List Byte} (h : s.out = b :: q)
    (hbusy : s.inFlight = true) :
    readReg .outData s = (outDataWord b, { drawn s with out := q }) ∨
    readReg .outData s = (0#32, drawn s) := by
  cases hd : Config.freeBool s.draws <;> simp [readReg, readOutData, h, hbusy, hd]

/-- Settles O48: one read of OUT_DATA in each of the three cases of R81. -/
theorem outDataRead : Obligations.OutDataRead := by
  intro s rest hs hhost
  have hstep := step_read hs hhost (by decide) (by decide)
  rw [show regAt 0x18 = .outData from rfl] at hstep
  refine ⟨fun hout => ?_, fun b q hout => ⟨fun hp ht => ?_, fun hflight => ?_⟩⟩
  · rw [readOutData_empty (s := hostTaken rest s) hout] at hstep
    exact ⟨_, _, hstep⟩
  · rw [readOutData_idle (s := hostTaken rest s) hout (inFlight_eq_false hp ht)] at hstep
    exact ⟨_, _, hstep⟩
  · rcases readOutData_inFlight (s := hostTaken rest s) hout
      (inFlight_iff.2 hflight) with e | e <;> rw [e] at hstep
    · exact .inl ⟨_, _, hstep⟩
    · exact .inr ⟨_, _, hstep⟩

end Sys2Proof.Machine
end

section
/-! SUPPORT. The block's two steps (R79), and which state element each command may write (R84). -/

namespace Sys2Proof.Machine

open Sys2Proof.Spec

/-! ### The block's steps -/

theorem step_of_blockTurnIn {s : State} (hs : blockTurnIn s) : step s = blockTurn s := by
  obtain ⟨hreset, hblock⟩ := hs
  simp [step, hreset, hblock]

/-- Settles O4: the block's turn dispatches the pending word, which is the decoded command. -/
theorem stepPerformsPendingCommand : Obligations.StepPerformsPendingCommand := by
  intro s t p i hs hp hi ht
  have hdispatch : dispatchWord p.word s = .next t := by simp only [dispatchWord, hi, ht]
  rw [step_of_blockTurnIn hs]
  simp only [blockTurn, hp, perform, hdispatch]
  rfl

/-- Settles O6: the block's turn with nothing pending is the settle step. -/
theorem settleClearsTail : Obligations.SettleClearsTail := by
  intro s hs hp
  rw [step_of_blockTurnIn hs]
  simp only [blockTurn, hp, settle]

/-! ### Which commands write which element -/

/-- The decoder's registers (R38), which UNPK, UEND, DRST and CLR alone write (R84). -/
def State.decoderSide (s : State) := (s.dpad, s.dheld, s.dheldV, s.cand, s.dcount)

/-- PUT writes neither the code table, nor the decoder, nor OUT. -/
theorem putRule_keeps (x : Byte) (s : State) :
    ((putRule x s).code, (putRule x s).maxLen, (putRule x s).tv) = (s.code, s.maxLen, s.tv) ∧
    (putRule x s).decoderSide = s.decoderSide ∧ (putRule x s).out = s.out := by
  rcases putRule_cases x s with ⟨_, e⟩ | ⟨_, _, e⟩ | ⟨_, _, e⟩ <;> rw [e] <;> exact ⟨rfl, rfl, rfl⟩

/-- BUILD writes neither the symbols, nor their counts, nor the decoder, nor OUT. -/
theorem buildRule_keeps (s : State) :
    (buildRule s).freq = s.freq ∧ (buildRule s).sym = s.sym ∧
    (buildRule s).decoderSide = s.decoderSide ∧ (buildRule s).out = s.out := by
  rcases buildRule_cases s with ⟨_, e⟩ | ⟨_, e⟩ <;> rw [e] <;> exact ⟨rfl, rfl, rfl, rfl⟩

/-- PACK keeps the tables and the decoder, and appends to OUT. -/
theorem packRule_writes (s : State) :
    (packRule s).tableSide = s.tableSide ∧ (packRule s).decoderSide = s.decoderSide ∧
    ∃ l, (packRule s).out = s.out ++ l := by
  rcases packRule_cases s with ⟨_, e⟩ | ⟨_, _, _, _, _, _, e⟩ | ⟨_, _, e⟩ <;> rw [e]
  · exact ⟨rfl, rfl, [], by simp⟩
  · exact ⟨rfl, rfl, [], by simp⟩
  · exact ⟨rfl, rfl, packedStream (encodedText s), rfl⟩

/-- A fed bit string appends to OUT, whether it goes on or raises (R211). -/
theorem feedAll_out {opc : Byte} {ts : Bits} {s t : State}
    (h : feedAll opc ts s = .goes t ∨ feedAll opc ts s = .raised t) :
    ∃ l, t.out = s.out ++ l := by
  rcases h with h | h
  · obtain ⟨l, e⟩ := feedAll_goes h
    exact ⟨l, congrArg State.out e⟩
  · obtain ⟨l, e⟩ := feedAll_raised h
    exact ⟨l, congrArg State.out e⟩

theorem unpkRule_out (b : Byte) (s : State) : ∃ l, (unpkRule b s).out = s.out ++ l := by
  unfold unpkRule
  split
  · rcases unpkHeader_cases b s with ⟨_, _, e⟩ | ⟨_, e⟩ <;> rw [e] <;> exact ⟨[], by simp⟩
  · rcases unpkData_cases b s with ⟨_, e⟩ | ⟨_, t, hf, e⟩ | ⟨_, t, hf, e⟩ <;> rw [e]
    · exact ⟨[], by simp⟩
    · exact feedAll_out (t := t) (.inl hf)
    · exact feedAll_out (.inr hf)

theorem uendRule_out (s : State) : ∃ l, (uendRule s).out = s.out ++ l := by
  rcases uendRule_cases s with ⟨_, e⟩ | ⟨_, _, e⟩ |
    ⟨_, _, ⟨t, hf, e⟩ | ⟨t, hf, _, e⟩ | ⟨t, hf, _, e⟩⟩ <;> rw [e]
  · exact ⟨[], by simp⟩
  · exact ⟨[], by simp⟩
  · exact feedAll_out (.inr hf)
  · exact feedAll_out (t := t) (.inl hf)
  · exact feedAll_out (t := t) (.inl hf)

/-- The writers R84 and R51 list for each element, for the command `i` leading from `s` to `t`. -/
def WritesListed (i : Instr) (s t : State) : Prop :=
  (t.freq ≠ s.freq → (∃ x, i = .put x) ∨ (∃ x, i = .ldfreq x) ∨ i = .clr) ∧
  (t.sym ≠ s.sym → (∃ x, i = .put x) ∨ i = .clr) ∧
  (t.code ≠ s.code ∨ t.maxLen ≠ s.maxLen ∨ t.tv ≠ s.tv → i = .build ∨ i = .clr) ∧
  (t.dpad ≠ s.dpad ∨ t.dheld ≠ s.dheld ∨ t.dheldV ≠ s.dheldV ∨ t.cand ≠ s.cand ∨
      t.dcount ≠ s.dcount →
    (∃ b, i = .unpk b) ∨ i = .uend ∨ i = .drst ∨ i = .clr) ∧
  (t.out ≠ s.out →
    ((i = .pack ∨ (∃ b, i = .unpk b) ∨ i = .uend) ∧ ∃ l, t.out = s.out ++ l) ∨
      ((i = .clr ∨ i = .drst) ∧ t.out = []))

/-- A command that keeps every element is within its limits. -/
theorem writesListed_of_keeps {i : Instr} {s t : State} (htable : t.tableSide = s.tableSide)
    (hdec : t.decoderSide = s.decoderSide) (hout : t.out = s.out) : WritesListed i s t := by
  simp only [State.tableSide, State.decoderSide, Prod.mk.injEq] at htable hdec
  simp [WritesListed, htable, hdec, hout]

/-- A command that keeps the tables may append to OUT where it is one of those that do. -/
theorem writesListed_of_appends {i : Instr} {s t : State} (htable : t.tableSide = s.tableSide)
    (hdec : t.decoderSide = s.decoderSide ∨ (∃ b, i = .unpk b) ∨ i = .uend)
    (hi : i = .pack ∨ (∃ b, i = .unpk b) ∨ i = .uend) (hout : ∃ l, t.out = s.out ++ l) :
    WritesListed i s t := by
  simp only [State.tableSide, State.decoderSide, Prod.mk.injEq] at htable hdec
  obtain ⟨htv, hfreq, hsym, hcode, hmax⟩ := htable
  refine ⟨absurd hfreq, absurd hsym, by simp [htv, hcode, hmax], fun hne => ?_,
    fun _ => .inl ⟨hi, hout⟩⟩
  rcases hdec with ⟨h1, h2, h3, h4, h5⟩ | hunpk | huend
  · simp [h1, h2, h3, h4, h5] at hne
  · exact .inl hunpk
  · exact .inr (.inl huend)

/-- Every command's rule writes only what R84 lists for it. -/
theorem ruleOf_writesListed (i : Instr) (s : State) : WritesListed i s (ruleOf i s) := by
  cases i with
  | clr => simp [WritesListed, ruleOf]
  | drst => simp [WritesListed, ruleOf]
  | ldfreq x => simp [WritesListed, ruleOf, ldfreqRule]
  | put x =>
    obtain ⟨hcode, hdec, hout⟩ := putRule_keeps x s
    simp only [State.decoderSide, Prod.mk.injEq] at hcode hdec
    simp [WritesListed, ruleOf, hcode, hdec, hout]
  | build =>
    obtain ⟨hfreq, hsym, hdec, hout⟩ := buildRule_keeps s
    simp only [State.decoderSide, Prod.mk.injEq] at hdec
    simp [WritesListed, ruleOf, hfreq, hsym, hdec, hout]
  | pack =>
    obtain ⟨htable, hdec, hout⟩ := packRule_writes s
    exact writesListed_of_appends htable (.inl hdec) (.inl rfl) hout
  | unpk b =>
    exact writesListed_of_appends (unpkRule_keeps b s).2 (.inr (.inl ⟨b, rfl⟩))
      (.inr (.inl ⟨b, rfl⟩)) (unpkRule_out b s)
  | uend =>
    exact writesListed_of_appends (uendRule_keeps s).2 (.inr (.inr rfl)) (.inr (.inr rfl))
      (uendRule_out s)
  | nop | rdfreq | rdclen | rdcbits => exact writesListed_of_keeps rfl rfl rfl

/-- Settles O42: an ignored command and a raise keep every element listed, and each command's rule
writes only its own. -/
theorem onlyTheseCommandsWrite : Obligations.OnlyTheseCommandsWrite := by
  intro i s t h
  exact exec_induction (P := WritesListed i s) h (writesListed_of_keeps rfl rfl rfl)
    (fun _ _ _ => writesListed_of_keeps rfl rfl rfl) fun _ => ruleOf_writesListed i s

end Sys2Proof.Machine
end

section
/-! SUPPORT. The host's accesses as steps: a read or a write of each register of the window
(R72 to R77, R80). -/

namespace Sys2Proof.Machine

open Sys2Proof.Spec

/-! ### The host's turn -/

theorem blockMovesNext_of_idle {s : State} (h : s.inFlight = false) : blockMovesNext s = false := by
  simp [blockMovesNext, h]

theorem step_of_hostMovesNext {s : State} (hreset : s.resetLine = false)
    (hblock : blockMovesNext s = false) : step s = hostTurn s := by
  simp [step, hreset, hblock]

/-- A host action that does not wait is made on the state with the action taken off the list. -/
theorem step_hostMove {s : State} {op : HostOp} {rest : List HostOp} (hs : hostTurnIn s)
    (hhost : s.host = op :: rest) (hwaits : hostWaits s = false) :
    step s = hostMove op (hostTaken rest s) := by
  obtain ⟨hreset, hblock, _⟩ := hs
  rw [step_of_hostMovesNext hreset hblock]
  simp [hostTurn, hhost, hwaits, hostTaken]

theorem windowTarget_cmd {p : Params} (hordered : p.windowOrdered = true) :
    windowTarget p p.base 4 = .ok .cmd :=
  windowTarget_in (off := 0) hordered (by decide) (by decide)

/-- A CMD write waits while BUSY (R74). -/
theorem hostWaits_cmdWrite {s : State} {w : Word} {rest : List HostOp}
    (hordered : s.cfg.windowOrdered = true) (hhost : s.host = .write s.cfg.base 4 w :: rest) :
    hostWaits s = s.busy := by
  simp [hostWaits, hhost, windowTarget_cmd hordered]

/-- A write that does not reach CMD does not wait: `simp` discards the waiting case of the match by
`htarget`. -/
theorem hostWaits_eq_false_of_target {s : State} {addr bytes : Nat} {v : Word} {rest : List HostOp}
    (hhost : s.host = .write addr bytes v :: rest)
    (htarget : windowTarget s.cfg addr bytes ≠ .ok .cmd) : hostWaits s = false := by
  simp only [hostWaits, hhost]

/-! ### Writes -/

theorem writeReg_ignored {r : WindowReg} (v : Word) (s : State)
    (hr : r ≠ .cmd ∧ r ≠ .arg ∧ r ≠ .ctrl) : writeReg r v s = s := by
  obtain ⟨hcmd, harg, hctrl⟩ := hr
  rcases writeReg_cases r v s with ⟨e, _⟩ | ⟨e, _⟩ | ⟨e, _⟩ | ⟨_, _, _, e⟩
  · exact absurd e hcmd
  · exact absurd e harg
  · exact absurd e hctrl
  · exact e

/-- A write to a register other than CMD changes what `writeReg` says (R73, R75, R76). -/
theorem stepsTo_write {s : State} {v : Word} {rest : List HostOp} {off : Nat} (hs : hostTurnIn s)
    (hhost : s.host = .write (s.cfg.base + off) 4 v :: rest) (hoff : off < 0x40)
    (h4 : off % 4 = 0) (hcmd : regAt off ≠ .cmd) :
    stepsTo s (writeReg (regAt off) v (afterIgnored s rest)) := by
  have ⟨_, _, hordered⟩ := hs
  have htarget := windowTarget_in hordered hoff h4
  have hwaits : hostWaits s = false :=
    hostWaits_eq_false_of_target hhost (by simpa [htarget] using hcmd)
  refine ⟨s.delay - 1, s.draws, ?_⟩
  rw [step_hostMove hs hhost hwaits]
  simp only [hostMove, hostTaken, htarget]
  rcases writeReg_cases (regAt off) v s with ⟨e, _⟩ | ⟨e, _⟩ | ⟨e, _⟩ | ⟨_, harg, hctrl, _⟩
  · exact absurd e hcmd
  · rw [e]; rfl
  · rw [e]; rfl
  · rw [writeReg_ignored _ _ ⟨hcmd, harg, hctrl⟩, writeReg_ignored _ _ ⟨hcmd, harg, hctrl⟩]; rfl

/-- Settles O43: with nothing in flight the write waits exactly while OUT is above its depth; with a
command in flight the waiting host leaves the turn to the block. In the last case `hno` discards the
reset that would cut the write off. -/
theorem cmdWriteCapturesOrWaits : Obligations.CmdWriteCapturesOrWaits := by
  intro s w rest hreset hordered hhost
  have hwaits := hostWaits_cmdWrite hordered hhost
  refine ⟨fun hp ht hout => ?_, fun hflight => ?_, fun hp ht hout hno => ?_⟩
  · have hidle := inFlight_eq_false hp ht
    have hbusy : s.busy = false := by simp [State.busy, hidle, hout]
    refine ⟨Config.freeDelay s.draws, s.draws + 1, ?_⟩
    rw [step_hostMove ⟨hreset, blockMovesNext_of_idle hidle, hordered⟩ hhost (hwaits.trans hbusy)]
    simp only [hostMove, hostTaken, windowTarget_cmd hordered]
    rfl
  · have hbusy : s.busy = true := by simp [State.busy, inFlight_iff.2 hflight]
    exact step_of_blockTurnIn
      ⟨hreset, by simp [blockMovesNext, hostCanMove, hwaits, hbusy, inFlight_iff.2 hflight]⟩
  · have hbusy : s.busy = true := busy_iff.2 (.inr (.inr hout))
    rw [step_of_hostMovesNext hreset (blockMovesNext_of_idle (inFlight_eq_false hp ht))]
    simp only [hostTurn, hhost, hwaits, hbusy, if_true]

/-! ### Reads -/

/-- The host's place in its program does not show in a read. -/
theorem readReg_hostTaken_value (r : WindowReg) (rest : List HostOp) (s : State)
    (hr : r ≠ .outData) : (readReg r (hostTaken rest s)).1 = (readReg r s).1 := by
  cases r with
  | outData => exact absurd rfl hr
  | status => simp only [readReg, readStatus, apply_ite Prod.fst]; rfl
  | result | errinfo | symlen => simp only [readReg, readQuiet, apply_ite Prod.fst]; rfl
  | cmd | arg | ctrl | id | cap | reserved => rfl

/-- A read of a register other than OUT_DATA is noted, and changes nothing but the model's count of
draws. -/
theorem stepsTo_read {s : State} {rest : List HostOp} {off : Nat} (hs : hostTurnIn s)
    (hhost : s.host = .read (s.cfg.base + off) 4 :: rest) (hoff : off < 0x40) (h4 : off % 4 = 0)
    (hr : regAt off ≠ .outData) :
    stepsTo s (afterRead s rest (regAt off) (readReg (regAt off) s).1) := by
  have hout : (readReg (regAt off) (hostTaken rest s)).2.out = s.out :=
    (readReg_out (regAt off) (hostTaken rest s)).resolve_right fun h => hr h.1
  have hstep := step_read hs hhost hoff h4
  rw [readReg_frame, hout, readReg_hostTaken_value _ _ _ hr] at hstep
  exact ⟨_, _, hstep⟩

theorem readQuiet_idle {s : State} (v : Word) (h : s.busy = false) : readQuiet v s = (v, s) := by
  simp [readQuiet, h]

theorem readQuiet_busy {s : State} (v : Word) (h : s.busy = true) :
    readQuiet v s = (Config.freeWord s.draws, drawn s) := by
  simp [readQuiet, h]

theorem readStatus_idle {s : State} (h : s.busy = false) : readStatus s = (s.statusWord, s) := by
  simp [readStatus, h]

theorem readStatus_busy {s : State} (h : s.busy = true) :
    readStatus s = (1#1 ++ (Config.freeWord s.draws).setWidth 31, drawn s) := by
  simp [readStatus, h]

/-- CTRL's two bits as the word a read returns (R44). -/
theorem setWidth_ctrl (c : BitVec 2) : c.setWidth 32 = 0#30 ++ c := by
  simp [BitVec.setWidth_eq_append]

/-- Reads of every register but OUT_DATA leave the block as it is while BUSY = 0 (R77). -/
theorem readReg_idle {s : State} {r : WindowReg} (hr : r ≠ .outData) (h : s.busy = false) :
    (readReg r s).2 = s := by
  cases r with
  | outData => exact absurd rfl hr
  | status => rw [readReg, readStatus_idle h]
  | result | errinfo | symlen => rw [readReg, readQuiet_idle _ h]
  | cmd | arg | ctrl | id | cap | reserved => rfl

/-- Settles O44: the accesses at the two offsets, BUSY or not. -/
theorem argAndCtrlAccesses : Obligations.ArgAndCtrlAccesses := by
  intro s v rest hs
  refine ⟨fun hhost => ?_, fun hhost => ?_, fun hhost => ?_, fun hhost => ?_⟩
  · exact stepsTo_write hs hhost (by decide) (by decide) (by decide)
  · exact stepsTo_read hs hhost (by decide) (by decide) (by decide)
  · rw [← BitVec.setWidth_eq_extractLsb' (by decide)]
    exact stepsTo_write hs hhost (by decide) (by decide) (by decide)
  · rw [← setWidth_ctrl]
    exact stepsTo_read hs hhost (by decide) (by decide) (by decide)

/-- The reserved offsets of R71. -/
theorem regAt_reserved : ∀ off ∈ [0x28, 0x2C, 0x30, 0x34, 0x38, 0x3C],
    regAt off = .reserved ∧ off < 0x40 ∧ off % 4 = 0 := by decide

/-- The reserved offsets and those of the read-only registers hold none of CMD, ARG and CTRL. -/
theorem regAt_notWritable :
    ∀ off ∈ [0x28, 0x2C, 0x30, 0x34, 0x38, 0x3C, 0x08, 0x0C, 0x10, 0x18, 0x1C, 0x20, 0x24],
      (regAt off ≠ .cmd ∧ regAt off ≠ .arg ∧ regAt off ≠ .ctrl) ∧ off < 0x40 ∧ off % 4 = 0 := by
  decide

/-- Settles O45: none of these offsets is CMD, ARG or CTRL, and reserved offsets and CMD read 0. -/
theorem reservedAndReadOnlyAccesses : Obligations.ReservedAndReadOnlyAccesses := by
  intro s v rest off hs
  refine ⟨fun hmem hhost => ?_, fun hmem hhost => ?_, fun hhost => ?_⟩
  · obtain ⟨hr, hoff, h4⟩ := regAt_reserved off hmem
    have h := stepsTo_read hs hhost hoff h4 (by simp [hr])
    rwa [hr] at h
  · obtain ⟨hr, hoff, h4⟩ := regAt_notWritable off hmem
    have h := stepsTo_write hs hhost hoff h4 hr.1
    rwa [writeReg_ignored v _ hr] at h
  · exact stepsTo_read (off := 0) hs hhost (by decide) (by decide) (by decide)

/-- R80: a read of `r` gives the exact value `x` while BUSY = 0, and a draw while BUSY = 1, with
bit 31 set for STATUS. -/
def ExactOrDrawn (s : State) (rest : List HostOp) (r : WindowReg) (x : Word) : Prop :=
  (s.busy = false → stepsTo s (afterRead s rest r x)) ∧
  (s.busy = true → ∃ v, stepsTo s (afterRead s rest r v) ∧
    (r ≠ .status → v = Config.freeWord s.draws) ∧
    (r = .status → v.getLsbD 31 = true ∧
      v.setWidth 31 = (Config.freeWord s.draws).setWidth 31))

theorem exactOrDrawn_of_readQuiet {s : State} {rest : List HostOp} {r : WindowReg} {v : Word}
    (hr : r ≠ .status) (h : stepsTo s (afterRead s rest r (readQuiet v s).1)) :
    ExactOrDrawn s rest r v := by
  refine ⟨fun hb => ?_, fun hb => ⟨Config.freeWord s.draws, ?_, fun _ => rfl, (absurd · hr)⟩⟩
  · rwa [readQuiet_idle _ hb] at h
  · rwa [readQuiet_busy _ hb] at h

theorem exactOrDrawn_of_readStatus {s : State} {rest : List HostOp}
    (h : stepsTo s (afterRead s rest .status (readStatus s).1)) :
    ExactOrDrawn s rest .status s.statusWord := by
  refine ⟨fun hb => ?_, fun hb =>
    ⟨1#1 ++ (Config.freeWord s.draws).setWidth 31, ?_, (absurd rfl ·), fun _ => ⟨?_, ?_⟩⟩⟩
  · rwa [readStatus_idle hb] at h
  · rwa [readStatus_busy hb] at h
  · exact getLsbD_of_extractLsb'_one BitVec.extractLsb'_append_eq_left
  · exact BitVec.setWidth_append_eq_right

/-- The offset of each register whose reads are draws while BUSY = 1 reaches it, and the register is
read by `readStatus` or `readQuiet` (R80). -/
theorem read_exactOrDrawn {s : State} {rest : List HostOp} {off : Nat} {r : WindowReg} {v : Word}
    (hs : hostTurnIn s) (hhost : s.host = .read (s.cfg.base + off) 4 :: rest)
    (hr : (off = 0x08 ∧ r = .status ∧ v = s.statusWord) ∨
      (off = 0x0C ∧ r = .result ∧ v = s.result) ∨
      (off = 0x10 ∧ r = .errinfo ∧ v = s.errInfo) ∨
      (off = 0x1C ∧ r = .symlen ∧ v = BitVec.ofNat 32 s.symLen)) : ExactOrDrawn s rest r v := by
  have hread := stepsTo_read hs hhost
  rcases hr with ⟨rfl, rfl, rfl⟩ | ⟨rfl, rfl, rfl⟩ | ⟨rfl, rfl, rfl⟩ | ⟨rfl, rfl, rfl⟩
  · exact exactOrDrawn_of_readStatus (hread (by decide) (by decide) (by decide))
  · exact exactOrDrawn_of_readQuiet (by decide) (hread (by decide) (by decide) (by decide))
  · exact exactOrDrawn_of_readQuiet (by decide) (hread (by decide) (by decide) (by decide))
  · exact exactOrDrawn_of_readQuiet (by decide) (hread (by decide) (by decide) (by decide))

/-- Settles O46: each read is a step, with the value its register gives. -/
theorem registerReads : Obligations.RegisterReads := by
  intro s rest off r v hs hhost
  have hread := stepsTo_read hs hhost
  refine ⟨read_exactOrDrawn hs hhost, ?_, ?_, ?_, ?_,
    fun hoff h4 => ⟨_, step_read hs hhost hoff h4⟩⟩
  · rintro rfl
    exact hread (by decide) (by decide) (by decide)
  · rintro rfl
    exact hread (by decide) (by decide) (by decide)
  · rintro rfl
    exact hread (by decide) (by decide) (by decide)
  · rintro rfl
    rw [← setWidth_ctrl]
    exact hread (by decide) (by decide) (by decide)

/-! ### What any access changes -/

/-- Settles O49: by the kind of access; the reset edge is excluded. -/
theorem hostAccessesChangeOnly : Obligations.HostAccessesChangeOnly := by
  refine ⟨fun s r => readReg_idle, fun s t hs h hnoReset => ?_⟩
  obtain ⟨hreset, hblock, _⟩ := hs
  rw [step_of_hostMovesNext hreset hblock] at h
  rcases hostTurn_next h with ⟨_, rfl⟩ | hc
  · exact ⟨rfl, (absurd rfl ·), (absurd rfl ·)⟩
  cases hc with
  | reset => cases hnoReset
  | cmd rest d w _ ha => exact ⟨rfl, fun _ => ⟨w, rest, ha, rfl⟩, (absurd rfl ·)⟩
  | pop rest d b q n hout => exact ⟨rfl, (absurd rfl ·), fun _ => ⟨b, hout, rfl⟩⟩
  | ignored | arg | ctrl | read => exact ⟨rfl, (absurd rfl ·), (absurd rfl ·)⟩

/-! ### Accesses with no meaning -/

/-- An access in the window that is no whole aligned word has no target (R72). -/
theorem windowTarget_notWholeWord {p : Params} {off bytes : Nat} (hordered : p.windowOrdered = true)
    (hoff : off < 0x40) (h : bytes ≠ 4 ∨ off % 4 ≠ 0) :
    windowTarget p (p.base + off) bytes = .error .notWholeWord := by
  have hin : ¬ (p.base + off < p.base ∨ p.base + 0x40 ≤ p.base + off) := by omega
  simp only [windowTarget, hordered, Bool.true_eq_false, if_false, hin, Nat.add_sub_cancel_left,
    if_pos h]

/-- Settles O51: such an access has no target, so it neither waits nor acts. -/
theorem narrowAccessesRefused : Obligations.NarrowAccessesRefused := by
  intro s v rest off bytes hs hoff hnarrow hhost
  have ⟨_, _, hordered⟩ := hs
  have htarget := windowTarget_notWholeWord hordered hoff hnarrow
  rcases hhost with hhost | hhost
  · rw [step_hostMove hs hhost (by simp [hostWaits, hhost])]
    simp [hostMove, hostRead, hostTaken, htarget]
  · rw [step_hostMove hs hhost (hostWaits_eq_false_of_target hhost (by simp [htarget]))]
    simp [hostMove, hostTaken, htarget]

end Sys2Proof.Machine
end

section
/-! SUPPORT. Command words both ways: decoding inverts encoding, and the words that decode are the
legal ones and those of the rows (spec/30_encoding.md R103, R104, R108). -/

namespace Sys2Proof

/-! ### Decoding inverts encoding -/

/-- A well-formed command's word decodes to the command (R103). -/
theorem decode_encode {i : Instr} (h : i.wellFormed = true) : decode (encode i) = .ok i := by
  cases i with
  | nop | clr | build | pack | uend | drst => rfl
  | put | ldfreq | unpk | rdfreq | rdclen => simp [decode, encode, decodeS_ok]
  | rdcbits s k =>
    have hk : k ≤ 7#8 := of_decide_eq_true h
    simp [decode, encode, decodeSK_ok, hk]

theorem fieldOpc_eq_of_toNat {w : Word} {n : Nat} (h : (fieldOpc w).toNat = n) :
    fieldOpc w = BitVec.ofNat 8 n := by
  simp [← h]

section
variable {w : Word} {n : Nat} (hrsv : fieldRsv w = 0#8) (hopc : (fieldOpc w).toNat = n)
include hrsv hopc

/-- A word with RSV = 0 is spelled by its other fields. -/
theorem packFields_eq_of_opc : packFields 0#8 (fieldK w) (fieldS w) (BitVec.ofNat 8 n) = w := by
  rw [← fieldOpc_eq_of_toNat hopc, ← hrsv, packFields_fields]

theorem encode_of_decodePlain {i j : Instr} (hwf : i.wellFormed = true)
    (hi : encode i = packFields 0#8 0#8 0#8 (BitVec.ofNat 8 n)) (h : decodePlain w i = .ok j) :
    j.wellFormed = true ∧ encode j = w := by
  obtain ⟨rfl, hs, hk⟩ := decodePlain_ok.mp h
  have hw := packFields_eq_of_opc hrsv hopc
  rw [hs, hk] at hw
  exact ⟨hwf, hi.trans hw⟩

theorem encode_of_decodeS {f : Byte → Instr} {j : Instr} (hwf : ∀ s, (f s).wellFormed = true)
    (hf : ∀ s, encode (f s) = packFields 0#8 0#8 s (BitVec.ofNat 8 n))
    (h : decodeS w f = .ok j) : j.wellFormed = true ∧ encode j = w := by
  obtain ⟨rfl, hk⟩ := decodeS_ok.mp h
  have hw := packFields_eq_of_opc hrsv hopc
  rw [hk] at hw
  exact ⟨hwf _, (hf _).trans hw⟩

end

/-- A word that decodes is the word of the command, which is well formed (R104, R108). -/
theorem encode_of_decode {w : Word} {i : Instr} (h : decode w = .ok i) :
    i.wellFormed = true ∧ encode i = w := by
  unfold decode at h
  split at h
  case isFalse => cases h
  case isTrue hrsv =>
    split at h
    case h_1 ho | h_2 ho | h_5 ho | h_6 ho | h_8 ho | h_12 ho =>
      exact encode_of_decodePlain hrsv ho rfl rfl h
    case h_3 ho | h_4 ho | h_7 ho | h_9 ho | h_10 ho =>
      exact encode_of_decodeS hrsv ho (fun _ => rfl) (fun _ => rfl) h
    case h_11 ho =>
      obtain ⟨rfl, hk⟩ := decodeSK_ok.mp h
      exact ⟨decide_eq_true hk, packFields_eq_of_opc hrsv ho⟩
    case h_13 => cases h

/-- Settles O1: the two directions are `encode_of_decode` and `decode_encode`. -/
theorem decodeEncodeAgree : Obligations.DecodeEncodeAgree :=
  fun _ _ => ⟨encode_of_decode, fun ⟨hwf, hw⟩ => hw ▸ decode_encode hwf⟩

/-! ### The legal words -/

/-- Legality in the fields of the word (R104). -/
theorem legal_iff {w : Word} :
    legal w = true ↔ fieldRsv w = 0#8 ∧ fieldOpc w ≤ 0x0B#8 ∧
      (fieldS w = 0#8 ∨ fieldOpc w ∈ [0x02#8, 0x03#8, 0x06#8, 0x08#8, 0x09#8, 0x0A#8]) ∧
      (fieldK w = 0#8 ∨ fieldOpc w = 0x0A#8) ∧ (fieldOpc w ≠ 0x0A#8 ∨ fieldK w ≤ 7#8) := by
  simp only [legal, Bool.and_eq_true, Bool.or_eq_true, beq_iff_eq, bne_iff_ne, decide_eq_true_eq,
    List.contains_iff_mem, and_assoc]

/-- A legal word decodes: its opcode is known, and the fields its opcode does not use are 0. -/
theorem exists_decode_of_legal {w : Word} (h : legal w = true) : ∃ i, decode w = .ok i := by
  obtain ⟨hrsv, hopc, hs, hk, hk7⟩ := legal_iff.mp h
  unfold decode
  rw [if_pos hrsv]
  split
  case h_1 ho | h_2 ho | h_5 ho | h_6 ho | h_8 ho | h_12 ho =>
    rw [fieldOpc_eq_of_toNat ho] at hs hk
    exact ⟨_, decodePlain_ok.mpr
      ⟨rfl, hs.resolve_right (by decide), hk.resolve_right (by decide)⟩⟩
  case h_3 ho | h_4 ho | h_7 ho | h_9 ho | h_10 ho =>
    rw [fieldOpc_eq_of_toNat ho] at hk
    exact ⟨_, decodeS_ok.mpr ⟨rfl, hk.resolve_right (by decide)⟩⟩
  case h_11 ho =>
    exact ⟨_, decodeSK_ok.mpr ⟨rfl, hk7.resolve_left (absurd (fieldOpc_eq_of_toNat ho))⟩⟩
  case h_13 =>
    have hle : (fieldOpc w).toNat ≤ 11 := hopc
    grind

/-! ### The rows -/

theorem fieldOpc_and (w m : Word) : fieldOpc (w &&& m) = fieldOpc w &&& fieldOpc m :=
  BitVec.extractLsb'_and

theorem fieldS_and (w m : Word) : fieldS (w &&& m) = fieldS w &&& fieldS m :=
  BitVec.extractLsb'_and

theorem fieldK_and (w m : Word) : fieldK (w &&& m) = fieldK w &&& fieldK m :=
  BitVec.extractLsb'_and

theorem fieldRsv_and (w m : Word) : fieldRsv (w &&& m) = fieldRsv w &&& fieldRsv m :=
  BitVec.extractLsb'_and

theorem packFields_and (r k s o r' k' s' o' : Byte) :
    packFields r k s o &&& packFields r' k' s' o' =
      packFields (r &&& r') (k &&& k') (s &&& s') (o &&& o') :=
  word_ext (by simp [fieldRsv_and]) (by simp [fieldK_and]) (by simp [fieldS_and])
    (by simp [fieldOpc_and])

/-- The upper five bits of K are 0 exactly when K ≤ 7 (R103). -/
theorem and_F8_eq_zero_iff : ∀ k : Byte, k &&& 0xF8#8 = 0#8 ↔ k ≤ 7#8 := by decide

/-- The bits a command's row fixes (R103): all but those of its operands. -/
def Instr.rowMask : Instr → Word
  | .put _ | .ldfreq _ | .unpk _ | .rdfreq _ | .rdclen _ => packFields 0xFF#8 0xFF#8 0x00#8 0xFF#8
  | .rdcbits _ _ => packFields 0xFF#8 0xF8#8 0x00#8 0xFF#8
  | _ => packFields 0xFF#8 0xFF#8 0xFF#8 0xFF#8

/-- The row of R103 a command belongs to. -/
def Instr.row (i : Instr) : OpcodeRow := ⟨i.rowMask, packFields 0#8 0#8 0#8 i.opcode⟩

/-- A command's row stands at the place of its opcode (R102, R103). -/
theorem Instr.row_mem_opcodeRows (i : Instr) : i.row ∈ opcodeRows := by
  have hplace : opcodeRows[i.opcode.toNat]? = some i.row := by
    cases i <;> simp only [Instr.row, Instr.rowMask, Instr.opcode] <;> rfl
  exact List.mem_of_getElem? hplace

/-- A well-formed command's word is in the command's row. -/
theorem encode_and_row_mask {i : Instr} (h : i.wellFormed = true) :
    encode i &&& i.row.mask = i.row.pattern := by
  cases i with
  | nop | clr | build | pack | uend | drst => rfl
  | put | ldfreq | unpk | rdfreq | rdclen =>
    simp [encode, Instr.row, Instr.rowMask, Instr.opcode, packFields_and]
  | rdcbits s k =>
    have hk : k &&& 0xF8#8 = 0#8 := (and_F8_eq_zero_iff k).mpr (of_decide_eq_true h)
    simp [encode, Instr.row, Instr.rowMask, Instr.opcode, packFields_and, hk]

/-- What a row fixes (R103): every bit of RSV and OPC, and those of S and K to 0 unless its opcode
has the operand; for RDCBITS the upper five bits of K. -/
theorem opcodeRows_fields : ∀ r ∈ opcodeRows,
    (fieldRsv r.mask = 0xFF#8 ∧ fieldOpc r.mask = 0xFF#8) ∧
    (fieldRsv r.pattern = 0#8 ∧ fieldK r.pattern = 0#8 ∧ fieldS r.pattern = 0#8) ∧
    fieldOpc r.pattern ≤ 0x0B#8 ∧
    (fieldS r.mask = 0xFF#8 ∨
      fieldOpc r.pattern ∈ [0x02#8, 0x03#8, 0x06#8, 0x08#8, 0x09#8, 0x0A#8]) ∧
    (fieldK r.mask = 0xFF#8 ∨ fieldOpc r.pattern = 0x0A#8) ∧
    (fieldOpc r.pattern ≠ 0x0A#8 ∨ fieldK r.mask = 0xF8#8) := by
  decide

theorem and_FF (b : Byte) : b &&& 0xFF#8 = b := BitVec.and_allOnes

/-- A word has the opcode of its row. -/
theorem fieldOpc_of_row {r : OpcodeRow} (hr : r ∈ opcodeRows) {w : Word}
    (hw : w &&& r.mask = r.pattern) : fieldOpc w = fieldOpc r.pattern := by
  obtain ⟨⟨_, hopc⟩, _⟩ := opcodeRows_fields r hr
  rw [← hw, fieldOpc_and, hopc, and_FF]

theorem legal_of_row {r : OpcodeRow} (hr : r ∈ opcodeRows) {w : Word}
    (hw : w &&& r.mask = r.pattern) : legal w = true := by
  have hopc := fieldOpc_of_row hr hw
  obtain ⟨⟨hmRsv, _⟩, ⟨hRsv, hK, hS⟩, hle, hs, hk, hk7⟩ := opcodeRows_fields r hr
  rw [← hw, fieldRsv_and, hmRsv, and_FF] at hRsv
  rw [← hw, fieldS_and] at hS
  rw [← hw, fieldK_and] at hK
  rw [← hopc] at hle hs hk hk7
  refine legal_iff.mpr ⟨hRsv, hle, hs.imp_left fun hm => ?_, hk.imp_left fun hm => ?_,
    hk7.imp_right fun hm => ?_⟩
  · rwa [hm, and_FF] at hS
  · rwa [hm, and_FF] at hK
  · rwa [hm, and_F8_eq_zero_iff] at hK

/-- No two rows have one opcode (R102). -/
theorem opcodeRows_eq_of_opc : ∀ r ∈ opcodeRows, ∀ r' ∈ opcodeRows,
    fieldOpc r.pattern = fieldOpc r'.pattern → r = r' := by
  decide

theorem exists_row_of_decode {w : Word} : (∃ i, decode w = .ok i) →
    ∃ r ∈ opcodeRows, w &&& r.mask = r.pattern := by
  rintro ⟨i, hi⟩
  obtain ⟨hwf, rfl⟩ := encode_of_decode hi
  exact ⟨i.row, i.row_mem_opcodeRows, encode_and_row_mask hwf⟩

/-- Settles O2: a word that decodes is in a row, a word in a row is legal, and a legal word decodes;
and the row of a word is told by the word's opcode. -/
theorem legalWordsAreTheRows : Obligations.LegalWordsAreTheRows := by
  intro w
  have legal_of_rows : (∃ r ∈ opcodeRows, w &&& r.mask = r.pattern) → legal w = true :=
    fun ⟨_, hr, hw⟩ => legal_of_row hr hw
  refine ⟨?_, ⟨exists_row_of_decode, exists_decode_of_legal ∘ legal_of_rows⟩,
    fun r hr r' hr' hw hw' => ?_⟩
  · exact Iff.trans ⟨legal_of_rows ∘ exists_row_of_decode, exists_decode_of_legal⟩ legal_iff
  · exact opcodeRows_eq_of_opc r hr r' hr'
      ((fieldOpc_of_row hr hw).symm.trans (fieldOpc_of_row hr' hw'))

/-! ### Sample words -/

/-- Settles O3: the decoder is run on each word. -/
theorem sampleCommandWords : Obligations.SampleCommandWords := by
  unfold Obligations.SampleCommandWords
  decide

end Sys2Proof
end

section
/-! SUPPORT. The frequency counter: PUT, LDFREQ and RDFREQ in the phases where they act, and the
counting law of R134 (spec/40_frequency_counter.md); with them RDCLEN (spec/42_code_table.md
R177). -/

namespace Sys2Proof.Machine

open Sys2Proof.Spec

/-- A well-formed command in a phase of its row of R241 is its rule. -/
theorem exec_of_actsIn {i : Instr} {s : State} (hw : i.wellFormed = true) (hp : s.phase ≠ .error)
    (ha : actsIn i s.phase = true) : exec i s = .next (ruleOf i s) := by
  rw [exec_eq_gated hw, gated_acts hp ha]

/-- A well-formed command that acts in FILL is its rule there (R241). -/
theorem exec_of_fill {i : Instr} {s : State} (hw : i.wellFormed = true) (hp : s.phase = .fill)
    (ha : actsIn i .fill = true) : exec i s = .next (ruleOf i s) :=
  exec_of_actsIn hw (by simp [hp]) (by rwa [hp])

/-- CLR acts in every phase (R243). -/
theorem exec_clr (s : State) : exec .clr s = .next (leaveToFill s) := by
  by_cases hp : s.phase = .error
  · rw [exec_eq_gated rfl, gated, if_pos hp]
    rfl
  · exact exec_of_actsIn rfl hp (bne_iff_ne.2 hp)

/-! ### One command -/

/-- PUT below both limits appends the symbol and counts it (R131). -/
theorem putRule_of_fits {s : State} {x : Byte} (hcap : s.symLen ≠ s.cfg.symCap)
    (hmax : tableGet s.freq x ≠ 0xFFFFFFFF#32) :
    putRule x s = { s with
      sym := s.sym ++ [x]
      freq := tableSet s.freq x (tableGet s.freq x + 1#32)
      result := tableGet s.freq x + 1#32 } := by
  rw [putRule, if_neg hcap, if_neg hmax]

theorem operandA_of_pending {s : State} {p : Pending} (h : s.pending = some p) :
    s.operandA = p.arg := by
  rw [State.operandA, h]

/-- Settles O14: in FILL the command is PUT's rule, and neither of the rule's checks raises. -/
theorem putAppendsAndCounts : Obligations.PutAppendsAndCounts := by
  intro s x hp hcap hmax
  refine ⟨putRule x s, exec_of_fill rfl hp rfl, ?_⟩
  rw [putRule_of_fits hcap hmax]
  exact ⟨fun y => tableGet_set _ x y _, rfl⟩

/-- Settles O16: in FILL the command is LDFREQ's rule, whose operand is the captured ARG. -/
theorem ldfreqLoadsCapturedArg : Obligations.LdfreqLoadsCapturedArg := by
  intro s p x hp hpending
  refine ⟨ldfreqRule x s, exec_of_fill rfl hp rfl, fun y => ?_, rfl⟩
  rw [← operandA_of_pending hpending]
  exact tableGet_set _ x y _

/-- Settles O17: in these phases each command is its rule, which writes RESULT alone. -/
theorem readCommandsWriteResult : Obligations.ReadCommandsWriteResult := by
  refine fun s x => ⟨fun hp => exec_of_actsIn rfl hp (bne_iff_ne.2 hp), fun hp => ?_⟩
  have hne : s.phase ≠ .error := by rcases hp with hp | hp <;> simp [hp]
  exact exec_of_actsIn rfl hne (by simpa [actsIn] using hp)

/-! ### A sequence of PUTs (R134) -/

/-- In a state that counts its buffer, a count is at most SYM_LEN, so with SYM_CAP ≤ 2^24 (R9) it is
below 2^32 − 1. -/
theorem freq_ne_max {s : State} (hcount : s.CountsSym) (hlen : s.symLen ≤ 2 ^ 24) (x : Byte) :
    tableGet s.freq x ≠ 0xFFFFFFFF#32 := by
  intro hmax
  have hle : (tableGet s.freq x).toNat ≤ s.symLen := by
    rw [hcount x]
    exact List.count_le_length
  rw [hmax, BitVec.toNat_ofNat] at hle
  omega

/-- PUTs that fit, in FILL, append their symbols to the buffer and keep FREQ counting it. -/
theorem execAll_put {s : State} {l : List Byte} (hp : s.phase = .fill) (hcount : s.CountsSym)
    (hcap : s.cfg.symCap ≤ 2 ^ 24) (hfit : s.symLen + l.length ≤ s.cfg.symCap) :
    ∃ t, execAll (l.map .put) s = some t ∧ t.sym = s.sym ++ l ∧ t.CountsSym := by
  induction l generalizing s with
  | nil => exact ⟨s, rfl, by simp, hcount⟩
  | cons x l ih =>
    rw [List.length_cons] at hfit
    have hexec : exec (.put x) s = .next (putRule x s) := exec_of_fill rfl hp rfl
    have hput := putRule_of_fits (x := x) (by omega) (freq_ne_max hcount (by omega) x)
    have hsym : (putRule x s).sym = s.sym ++ [x] := by rw [hput]
    have hcfg : (putRule x s).cfg = s.cfg := by rw [hput]
    have hlen : (putRule x s).symLen = s.symLen + 1 := by simp [State.symLen, hsym]
    obtain ⟨t, hrun, htsym, htcount⟩ := ih (s := putRule x s) (by rw [hput]; exact hp)
      (putRule_countsSym x hcount) (by rwa [hcfg]) (by rw [hlen, hcfg]; omega)
    refine ⟨t, ?_, by simp [htsym, hsym], htcount⟩
    simpa only [List.map_cons, execAll, hexec] using hrun

theorem symCap_le_of_wf {p : Params} (h : p.wf = true) : p.symCap ≤ 2 ^ 24 := by
  simp only [Params.wf, Bool.and_eq_true, decide_eq_true_eq] at h
  obtain ⟨⟨⟨⟨_, hcap⟩, _⟩, _⟩, _⟩ := h
  exact hcap

/-- Settles O18: CLR leaves the phase FILL, an empty buffer and no counts, and `execAll_put` starts
there. -/
theorem putsCountTheSequence : Obligations.PutsCountTheSequence := by
  intro s s' l hwf hclr hfit
  obtain rfl := Host.Outcome.next.inj ((exec_clr s).symm.trans hclr)
  obtain ⟨t, hrun, hsym, hcount⟩ := execAll_put (s := leaveToFill s) (l := l) rfl
    (countsSym_of_empty rfl rfl) (symCap_le_of_wf hwf) (by simpa [State.symLen] using hfit)
  rw [leaveToFill_sym, List.nil_append] at hsym
  exact ⟨t, hrun, hsym, congrArg List.length hsym, fun x => hsym ▸ hcount x⟩

end Sys2Proof.Machine
end

section
/-! SUPPORT. The tree builder (spec/41_tree_builder.md): BUILD in FILL, the table of a single counted
symbol, the lengths of the codes, and the exact weights of the merge loop (R156, R158 to R160). -/

namespace Sys2Proof.Machine

open Sys2Proof.Spec

/-! ### BUILD in FILL -/

/-- The specification's counted symbols are the ones the table is derived from (R151). -/
theorem countedOf_eq (freq : Table Word) : countedOf freq = countedKeys freq := rfl

/-- BUILD in FILL with some count non-zero derives the table from FREQ (R150). -/
theorem exec_build {s : State} (hp : s.phase = .fill) (hk : countedKeys s.freq ≠ []) :
    exec .build s = .next { s with
      code := codeTable s.freq, maxLen := BitVec.ofNat 8 (maxCodeLen (codeTable s.freq)),
      tv := true, phase := .ready, result := BitVec.ofNat 32 (countedKeys s.freq).length } := by
  rw [exec_of_fill rfl hp rfl, ruleOf]
  rcases buildRule_cases s with ⟨hnil, _⟩ | ⟨_, e⟩
  · exact absurd hnil hk
  · rw [e]

/-- Settles O26: what BUILD writes in FILL is given by FREQ alone. -/
theorem buildDependsOnFrequenciesAlone : Obligations.BuildDependsOnFrequenciesAlone := by
  intro s s' hp hp' hfreq hk
  rw [countedOf_eq] at hk
  refine ⟨_, _, exec_build hp hk, exec_build hp' (hfreq ▸ hk), ?_⟩
  simp only [hfreq, and_self]

/-- Settles O23: the lengths of the codes are those of `codeTable_counted`, and there are at most 256
counted symbols. -/
theorem buildDepthBound : Obligations.BuildDepthBound := by
  intro s hp hk
  simp only [countedOf_eq] at hk ⊢
  refine ⟨_, exec_build hp hk, fun x hx => ?_⟩
  obtain ⟨hlow, hhigh⟩ := codeTable_counted hx
  have hn := countedKeys_length_le s.freq
  dsimp only
  omega

/-! ### A single counted symbol (R156) -/

theorem countedKeys_eq_singleton {freq : Table Word} {x : Byte} (hx : tableGet freq x ≠ 0#32)
    (hy : ∀ y, y ≠ x → tableGet freq y = 0#32) : countedKeys freq = [x] := by
  refine List.perm_singleton.1
    ((List.perm_ext_iff_of_nodup (countedKeys_nodup freq) (List.nodup_singleton x)).2 fun y => ?_)
  rw [mem_countedKeys, List.mem_singleton]
  constructor
  · exact fun h => by_contra fun hne => h (hy y hne)
  · rintro rfl
    exact hx

theorem codeTable_of_singleton {freq : Table Word} {x : Byte} (h : countedKeys freq = [x]) :
    codeTable freq = tableSet (tableOf []) x [false] := by
  rcases codeTable_cases (freq := freq) (by simp [h]) with ⟨y, hy, ht⟩ | ⟨hn, _⟩
  · obtain rfl : x = y := by simpa [h] using hy
    exact ht
  · simp [h] at hn

/-- The longest code of a table with one code is that code. -/
theorem maxCodeLen_tableSet (x : Byte) (c : Bits) :
    maxCodeLen (tableSet (tableOf []) x c) = c.length := by
  have hx := length_le_maxCodeLen (tableSet (tableOf []) x c) x
  rw [tableGet_set_self] at hx
  obtain ⟨y, hy⟩ := exists_length_eq_maxCodeLen (tableSet (tableOf []) x c)
  rw [tableGet_set] at hy
  split at hy
  · exact hy.symm
  · rw [tableGet_tableOf, List.length_nil] at hy
    omega

/-- Settles O21: with one counted symbol the table is that symbol's "0". -/
theorem buildSingleSymbol : Obligations.BuildSingleSymbol := by
  intro s x hp hx hy
  have hk := countedKeys_eq_singleton hx hy
  refine ⟨_, exec_build hp (by simp [hk]), rfl, ?_⟩
  simp only [hk, codeTable_of_singleton hk, maxCodeLen_tableSet]
  exact ⟨rfl, rfl, tableGet_set_self _ _ _, fun y hne => by simp [tableGet_set_ne _ _ hne]⟩

/-! ### Tree weights (R159) -/

/-- The sum of the weights of a queue's nodes, as a natural number. -/
def queueWeight (q : List TreeNode) : Nat := (q.map fun n => n.weight.toNat).sum

theorem queueWeight_cons (n : TreeNode) (q : List TreeNode) :
    queueWeight (n :: q) = n.weight.toNat + queueWeight q := by
  rw [queueWeight, List.map_cons, List.sum_cons, queueWeight]

theorem queueWeight_perm {q q' : List TreeNode} (h : q.Perm q') : queueWeight q = queueWeight q' :=
  (h.map _).sum_eq

/-- A merge whose exact sum fits in 40 bits has that sum as its weight. -/
theorem mergeNodes_weight (seq : Nat) {x y : TreeNode}
    (h : x.weight.toNat + y.weight.toNat < 2 ^ 40) :
    (mergeNodes seq x y).weight.toNat = x.weight.toNat + y.weight.toNat :=
  BitVec.toNat_add_of_lt h

/-- A queue whose weights sum below 2^40 keeps that sum through the loop, so that no merge wraps and
every node's weight stays exact. -/
theorem mergeLoop_exact (fuel seq : Nat) {q : List TreeNode} (hsum : queueWeight q < 2 ^ 40)
    (hq : ∀ n ∈ q, exactWeights n) :
    queueWeight (mergeLoop fuel seq q) = queueWeight q ∧
      ∀ n ∈ mergeLoop fuel seq q, exactWeights n := by
  induction fuel generalizing seq q with
  | zero => exact ⟨rfl, hq⟩
  | succ fuel ih =>
    match q with
    | [] | [_] => exact ⟨rfl, hq⟩
    | x :: y :: q =>
      simp only [List.forall_mem_cons] at hq
      obtain ⟨hx, hy, hrest⟩ := hq
      have hperm := queueInsert_perm (mergeNodes seq x y) q
      have hw : (mergeNodes seq x y).weight.toNat = x.weight.toNat + y.weight.toNat := by
        refine mergeNodes_weight seq ?_
        rw [queueWeight_cons, queueWeight_cons] at hsum
        omega
      have hkeep : queueWeight (queueInsert (mergeNodes seq x y) q) = queueWeight (x :: y :: q) := by
        rw [queueWeight_perm hperm, queueWeight_cons, hw, queueWeight_cons, queueWeight_cons,
          Nat.add_assoc]
      have hexact : ∀ n ∈ queueInsert (mergeNodes seq x y) q, exactWeights n := by
        intro n hn
        rcases List.mem_cons.1 (hperm.mem_iff.1 hn) with rfl | hn
        · exact ⟨hw, hx, hy⟩
        · exact hrest n hn
      rw [← hkeep] at hsum ⊢
      exact ih (seq + 1) hsum hexact

/-- The leaves weigh what their symbols count: the widening to 40 bits is exact (R151). -/
theorem queueWeight_leafQueue (l : List (Byte × Word)) :
    queueWeight (leafQueue l) = (l.map fun e => e.2.toNat).sum := by
  have hleaf : ∀ w : Word, (w.setWidth 40).toNat = w.toNat := fun w =>
    BitVec.toNat_setWidth_of_le (by decide)
  rw [queueWeight_perm (leafQueue_perm l), queueWeight, leafNodes, List.map_map]
  conv_rhs => rw [← List.zipIdx_map_fst 0 l, List.map_map]
  exact congrArg List.sum (List.map_congr_left fun e _ => hleaf e.1.2)

theorem exactWeights_of_mem_leafQueue {l : List (Byte × Word)} {n : TreeNode}
    (h : n ∈ leafQueue l) : exactWeights n := by
  obtain ⟨e, _, rfl⟩ := List.mem_map.1 ((leafQueue_perm l).mem_iff.1 h)
  trivial

/-- The tree of a non-empty list is the one node its merge loop leaves (R155). -/
theorem mergeLoop_of_buildTree {l : List (Byte × Word)} {root : TreeNode}
    (h : buildTree l = some root) : mergeLoop l.length l.length (leafQueue l) = [root] := by
  obtain ⟨tail, hloop⟩ := List.head?_eq_some_iff.1 h
  have hq : (leafQueue l).length = l.length := by
    rw [(leafQueue_perm l).length_eq, leafNodes_length]
  have hne : leafQueue l ≠ [] := by
    intro e
    rw [e] at hq
    simp [e, ← hq, mergeLoop] at hloop
  have hone := mergeLoop_length l.length l.length (leafQueue l) hne (by omega)
  rw [hloop] at hone ⊢
  simpa using hone

/-- A tree whose counts sum below 2^40 has exact weights, the root's being the sum (R159). -/
theorem buildTree_exact {l : List (Byte × Word)} {root : TreeNode} (h : buildTree l = some root)
    (hsum : (l.map fun e => e.2.toNat).sum < 2 ^ 40) :
    exactWeights root ∧ root.weight.toNat = (l.map fun e => e.2.toNat).sum := by
  rw [← queueWeight_leafQueue] at hsum ⊢
  obtain ⟨hkeep, hexact⟩ := mergeLoop_exact l.length l.length hsum
    fun _ => exactWeights_of_mem_leafQueue
  rw [mergeLoop_of_buildTree h] at hkeep hexact
  exact ⟨hexact root (List.mem_singleton_self root), hkeep⟩

/-- The symbols that are not counted add nothing to the sum of all counts. -/
theorem countedSymbols_sum (freq : Table Word) :
    ((countedSymbols freq).map fun e => e.2.toNat).sum =
      (allSymbols.map fun x => (tableGet freq x).toNat).sum := by
  have hzero : ∀ w : Word, (w != 0#32) = (w.toNat != 0) := fun w => by
    rw [Bool.eq_iff_iff, bne_iff_ne, bne_iff_ne, BitVec.toNat_ne, BitVec.toNat_ofNat, Nat.zero_mod]
  rw [countedSymbols_eq, List.map_map, ← List.sum_filter_bne_zero (allSymbols.map _),
    List.filter_map]
  simp only [countedKeys, hzero, Function.comp_def]

/-- 256 counts of 32 bits sum below 2^40 (R159). -/
theorem countedSymbols_sum_lt (freq : Table Word) :
    ((countedSymbols freq).map fun e => e.2.toNat).sum < 2 ^ 40 := by
  have hword : ∀ n ∈ (countedSymbols freq).map fun e => e.2.toNat, n ≤ 2 ^ 32 - 1 := by
    intro n hn
    obtain ⟨e, _, rfl⟩ := List.mem_map.1 hn
    exact Nat.le_sub_one_of_lt e.2.isLt
  have hle := List.sum_le_card_nsmul _ _ hword
  have hlen := countedKeys_length_le freq
  rw [List.length_map, countedSymbols_length, smul_eq_mul] at hle
  omega

/-- Settles O25: the counts of any FREQ sum below 2^40, so the merges of `buildTree` are exact. -/
theorem treeWeightsAreExact : Obligations.TreeWeightsAreExact := by
  intro freq hne
  obtain ⟨root, hroot, _⟩ := buildTree_spec hne
  obtain ⟨hexact, hweight⟩ := buildTree_exact hroot (countedSymbols_sum_lt freq)
  exact ⟨root, hroot, hexact, hweight.trans (countedSymbols_sum freq)⟩

end Sys2Proof.Machine
end

section
/-! SUPPORT. The code table after BUILD (spec/42_code_table.md): which symbols have codes, the longest
code, no code beginning another, the complete code, the chunks RDCBITS reads and the reverse map
(R172 to R178). -/

namespace Sys2Proof.Machine

open Sys2Proof.Spec

/-! ### Which symbols have codes (R172, R173) -/

/-- A symbol has a code exactly when it is counted (R172). -/
theorem codeTable_ne_nil {freq : Table Word} {x : Byte} :
    tableGet (codeTable freq) x ≠ [] ↔ x ∈ countedKeys freq := by
  constructor
  · exact fun h => by_contra fun hx => h (codeTable_uncounted hx)
  · exact fun h => List.ne_nil_of_length_pos (codeTable_counted h).1

theorem countedKeys_ne_nil {freq : Table Word} (h : ∃ x, tableGet freq x ≠ 0#32) :
    countedKeys freq ≠ [] := by
  obtain ⟨x, hx⟩ := h
  exact List.ne_nil_of_mem (mem_countedKeys.2 hx)

/-- MAXLEN is wide enough for the longest code (R158, R173). -/
theorem toNat_maxCodeLen_codeTable {freq : Table Word} (h : countedKeys freq ≠ []) :
    (BitVec.ofNat 8 (maxCodeLen (codeTable freq))).toNat = maxCodeLen (codeTable freq) := by
  have hhigh := (maxCodeLen_codeTable h).2
  rw [BitVec.toNat_ofNat]
  exact Nat.mod_eq_of_lt (by omega)

/-- Settles O20: the table BUILD writes codes the counted symbols alone, and MAXLEN is its longest
code. -/
theorem buildCodesCountedSymbols : Obligations.BuildCodesCountedSymbols := by
  intro s hp hx
  have hk := countedKeys_ne_nil hx
  refine ⟨_, exec_build hp hk, ?_⟩
  dsimp only
  rw [toNat_maxCodeLen_codeTable hk]
  exact ⟨fun x => List.length_pos_iff.trans (codeTable_ne_nil.trans mem_countedKeys),
    length_le_maxCodeLen _, exists_length_eq_maxCodeLen _, (maxCodeLen_codeTable hk).1, rfl⟩

/-! ### No code begins another (R174, R176) -/

/-- In a table BUILD derives no code begins another symbol's (R174). -/
theorem codeTable_not_prefix {freq : Table Word} {x y : Byte} (hxy : x ≠ y)
    (hx : tableGet (codeTable freq) x ≠ []) (hy : tableGet (codeTable freq) y ≠ []) :
    ¬ tableGet (codeTable freq) x <+: tableGet (codeTable freq) y := by
  rw [codeTable_ne_nil] at hx hy
  rcases codeTable_cases (List.ne_nil_of_mem hx) with ⟨z, hz, _⟩ | ⟨_, w, n, a, b, hperm, ht⟩
  · rw [hz, List.mem_singleton] at hx hy
    exact absurd (hx.trans hy.symm) hxy
  · have hnodup := hperm.nodup_iff.2 (countedKeys_nodup freq)
    obtain ⟨c, hc⟩ := TreeNode.exists_path [] (hperm.mem_iff.2 hx)
    obtain ⟨d, hd⟩ := TreeNode.exists_path [] (hperm.mem_iff.2 hy)
    rw [ht, tableGet_deriveCodes_of_mem hnodup hc, tableGet_deriveCodes_of_mem hnodup hd]
    exact TreeNode.paths_not_prefix hnodup hc hd hxy

/-- Settles O22: in the table BUILD writes no code begins another. -/
theorem buildPrefixFree : Obligations.BuildPrefixFree := fun _ hp hx =>
  ⟨_, exec_build hp (countedKeys_ne_nil hx), fun _ _ => codeTable_not_prefix⟩

/-- Settles O37: `REV` finds a symbol with the code, and two symbols with one code would be prefixes
of each other. -/
theorem reverseMapInvertsCodes : Obligations.ReverseMapInvertsCodes := by
  intro s x htable htv hx
  cases hrev : rev s.code (tableGet s.code x) with
  | none => exact absurd rfl (rev_eq_none hrev x hx)
  | some y =>
    have hcode := (rev_eq_some hrev).1
    by_contra hne
    have hyx : y ≠ x := fun e => hne (congrArg some e)
    have hy : tableGet s.code y ≠ [] := hcode ▸ hx
    rw [htable.derived htv] at hx hy hcode
    exact codeTable_not_prefix hyx hy hx (hcode ▸ List.prefix_rfl)

/-! ### The code is complete (R175) -/

/-- The Kraft sum of the paths below a node is that of the node's own path, scaled by 2^m for an `m`
that no path can exceed (R175). -/
theorem TreeNode.kraft_paths {n : TreeNode} {p : Bits} {m : Nat}
    (hm : p.length + n.leaves.length ≤ m + 1) :
    ((n.paths p).map fun e => 2 ^ (m - e.2.length)).sum = 2 ^ (m - p.length) := by
  induction n generalizing p with
  | leaf => simp [TreeNode.paths]
  | internal w k l r ihl ihr =>
    have hl := List.length_pos_of_ne_nil l.leaves_ne_nil
    have hr := List.length_pos_of_ne_nil r.leaves_ne_nil
    have hlen : ∀ t, (p ++ [t]).length = p.length + 1 := fun _ => List.length_append
    rw [TreeNode.leaves, List.length_append] at hm
    have hhalf : m - p.length = m - (p.length + 1) + 1 := by omega
    rw [TreeNode.paths, List.map_append, List.sum_append, ihl (by rw [hlen]; omega),
      ihr (by rw [hlen]; omega), hlen, hlen, hhalf, pow_succ, mul_two]

/-- A string read downwards from a node reached by `p` stops at an inner node, which properly starts
some path, or passes a leaf (R175). -/
theorem TreeNode.paths_complete (n : TreeNode) (p u : Bits) :
    ∃ e ∈ n.paths p, (p ++ u <+: e.2 ∧ p ++ u ≠ e.2) ∨ e.2 <+: p ++ u := by
  induction n generalizing p u with
  | leaf x _ _ => exact ⟨(x, p), List.mem_singleton_self _, .inr (List.prefix_append p u)⟩
  | internal w k l r ihl ihr =>
    rw [TreeNode.paths]
    cases u with
    | nil =>
      obtain ⟨x, hx⟩ := List.exists_mem_of_ne_nil _ l.leaves_ne_nil
      obtain ⟨c, hc⟩ := l.exists_path (p ++ [false]) hx
      have hlen := (TreeNode.prefix_of_mem_paths hc).length_le
      refine ⟨(x, c), List.mem_append_left _ hc, .inl ?_⟩
      rw [List.append_nil]
      refine ⟨(List.prefix_append p [false]).trans (TreeNode.prefix_of_mem_paths hc), ?_⟩
      rintro rfl
      simp at hlen
    | cons t u =>
      rw [List.append_cons p t u]
      cases t with
      | false =>
        obtain ⟨e, he, hu⟩ := ihl (p ++ [false]) u
        exact ⟨e, List.mem_append_left _ he, hu⟩
      | true =>
        obtain ⟨e, he, hu⟩ := ihr (p ++ [true]) u
        exact ⟨e, List.mem_append_right _ he, hu⟩

/-- The paths of a tree are its leaves with their entries of the derived table (R170). -/
theorem TreeNode.paths_eq_map {n : TreeNode} (hn : n.leaves.Nodup) (p : Bits) (t : Table Bits) :
    n.paths p = n.leaves.map fun x => (x, tableGet (deriveCodes n p t) x) := by
  rw [← n.paths_fst p, List.map_map]
  refine (List.map_id _).symm.trans (List.map_congr_left fun e he => ?_)
  exact Prod.ext rfl (tableGet_deriveCodes_of_mem hn he).symm

/-- The codes of two or more counted symbols are the paths of a tree with these symbols as its
leaves. -/
theorem exists_tree_of_codeTable {freq : Table Word} (h : 2 ≤ (countedKeys freq).length) :
    ∃ n : TreeNode, n.leaves.Perm (countedKeys freq) ∧
      n.paths [] = n.leaves.map fun x => (x, tableGet (codeTable freq) x) := by
  have hne : countedKeys freq ≠ [] := List.ne_nil_of_length_pos (by omega)
  rcases codeTable_cases hne with ⟨x, hx, _⟩ | ⟨_, w, k, a, b, hperm, ht⟩
  · simp [hx] at h
  · refine ⟨.internal w k a b, hperm, ?_⟩
    rw [ht]
    exact TreeNode.paths_eq_map (hperm.nodup_iff.2 (countedKeys_nodup freq)) [] _

/-- The Kraft sum of two or more counted symbols is 1 (R175). -/
theorem codeTable_kraft {freq : Table Word} (h : 2 ≤ (countedKeys freq).length) :
    ((countedKeys freq).map fun x => 2 ^ (255 - (tableGet (codeTable freq) x).length)).sum =
      2 ^ 255 := by
  obtain ⟨n, hperm, hpaths⟩ := exists_tree_of_codeTable h
  have hlen := countedKeys_length_le freq
  have hkraft := n.kraft_paths (p := []) (m := 255) (by simpa [hperm.length_eq] using hlen)
  rw [hpaths, List.map_map] at hkraft
  exact (hperm.symm.map _).sum_eq.trans hkraft

/-- `u` begins a code and ends before it does. -/
def StartsCode (t : Table Bits) (u : Bits) : Prop :=
  ∃ x, tableGet t x ≠ [] ∧ u <+: tableGet t x ∧ u ≠ tableGet t x

/-- `u` begins with a whole code. -/
def PassesCode (t : Table Bits) (u : Bits) : Prop :=
  ∃ x, tableGet t x ≠ [] ∧ tableGet t x <+: u

/-- With two or more counted symbols every string starts a code or passes one (R175). -/
theorem startsCode_or_passesCode {freq : Table Word} (h : 2 ≤ (countedKeys freq).length)
    (u : Bits) : StartsCode (codeTable freq) u ∨ PassesCode (codeTable freq) u := by
  obtain ⟨n, hperm, hpaths⟩ := exists_tree_of_codeTable h
  obtain ⟨e, he, hu⟩ := n.paths_complete [] u
  rw [hpaths] at he
  obtain ⟨x, hx, rfl⟩ := List.mem_map.1 he
  have hcoded := codeTable_ne_nil.2 (hperm.mem_iff.1 hx)
  exact hu.imp (fun hu => ⟨x, hcoded, hu⟩) fun hu => ⟨x, hcoded, hu⟩

/-- No string both starts a code and passes one, for the passed code would begin the started one
(R174, R175). -/
theorem not_startsCode_and_passesCode (freq : Table Word) (u : Bits) :
    ¬ (StartsCode (codeTable freq) u ∧ PassesCode (codeTable freq) u) := by
  rintro ⟨⟨x, hx, hux, hne⟩, y, hy, hyu⟩
  obtain rfl : y = x := by_contra fun hyx => codeTable_not_prefix hyx hy hx (hyu.trans hux)
  exact hne (hux.eq_of_length_le hyu.length_le)

/-- Where "0" is the only code, a string that starts with "1" is apart from every code (R175). -/
theorem not_prefix_of_singleton {x y : Byte} (u : Bits)
    (hy : tableGet (tableSet (tableOf []) x [false]) y ≠ []) :
    ¬ true :: u <+: tableGet (tableSet (tableOf []) x [false]) y ∧
      ¬ tableGet (tableSet (tableOf []) x [false]) y <+: true :: u := by
  have hyx : y = x := by_contra fun hne => hy (by simp [tableGet_set_ne _ _ hne])
  simp [hyx]

/-- Settles O24: with two or more counted symbols the code is that of a full tree, with one it is
"0". -/
theorem buildCompleteCode : Obligations.BuildCompleteCode := by
  intro s hp hk
  rw [countedOf_eq] at hk ⊢
  refine ⟨_, exec_build hp hk, fun hn => ?_, fun hn => ?_⟩
  · exact ⟨codeTable_kraft hn, fun u =>
      ⟨startsCode_or_passesCode hn u, not_startsCode_and_passesCode s.freq u⟩⟩
  · obtain ⟨x, hx⟩ := List.length_eq_one_iff.1 hn
    simp only [codeTable_of_singleton hx]
    exact ⟨by simp [hx], fun u => ⟨fun ⟨_, hy, hu⟩ => (not_prefix_of_singleton u hy).1 hu,
      fun ⟨_, hy, hu⟩ => (not_prefix_of_singleton u hy).2 hu⟩⟩

/-! ### RDCBITS (R178) -/

/-- Settles O27: RDCBITS is its rule in these phases, and a term with a larger chunk index is no
command. -/
theorem rdcbitsReadsChunk : Obligations.RdcbitsReadsChunk := by
  refine fun s x k => ⟨fun hk hp => ?_, fun hk hp => ?_⟩
  · have hne : s.phase ≠ .error := by rcases hp with hp | hp <;> simp [hp]
    exact ⟨codeChunk (tableGet s.code x) k.toNat,
      exec_of_actsIn (decide_eq_true hk) hne (by simpa [actsIn] using hp), codeChunk_getLsbD _ _⟩
  · have hill : (Instr.rdcbits x k).wellFormed = false := decide_eq_false (BitVec.not_le.2 hk)
    rw [exec_illFormed hill, illegalWord, if_neg hp]
    rfl

end Sys2Proof.Machine
end

section
/-! SUPPORT. The packer (spec/43_bit_packer.md): PACK in READY, the bytes of the packed stream and
their number, and the bound on the encoded length (R191 to R194, R197, R198). -/

namespace Sys2Proof.Machine

open Sys2Proof.Spec

/-! ### PACK in READY -/

/-- PACK acts in READY (R241). -/
theorem exec_pack {s : State} (hp : s.phase = .ready) : exec .pack s = .next (packRule s) :=
  exec_of_actsIn rfl (by simp [hp]) (by rw [hp]; rfl)

/-- PACK of a buffer whose symbols all have codes passes both checks of R190. -/
theorem packRule_of_coded {s : State} (hne : s.sym ≠ [])
    (hcoded : ∀ x ∈ s.sym, tableGet s.code x ≠ []) :
    packRule s = { s with
      out := s.out ++ packedStream (encodedText s),
      result := BitVec.ofNat 32 (encodedText s).length } := by
  rcases packRule_cases s with ⟨hnil, _⟩ | ⟨l, x, r, hsym, _, hx, _⟩ | ⟨_, _, e⟩
  · exact absurd hnil hne
  · exact absurd hx (hcoded x (by simp [hsym]))
  · exact e

/-! ### The bytes of the stream -/

/-- The specification's encoded text is the one PACK forms (R191). -/
theorem codesOf_eq (s : State) : codesOf s.code s.sym = encodedText s := rfl

/-- The specification's bits of a byte are those the model reads (R12). -/
theorem msbFirst_eq : msbFirst = bits8 := rfl

/-- Settles O28: PACK appends its packed stream, and the data bytes spell the padded text. -/
theorem packEmitsPackedStream : Obligations.PackEmitsPackedStream := by
  intro s hp hne hcoded
  refine ⟨dataBytes (encodedText s), ?_, ?_⟩
  · rw [exec_pack hp, packRule_of_coded hne hcoded]
    rfl
  · rw [msbFirst_eq, codesOf_eq]
    exact flatMap_bits8_dataBytes _

/-- The header byte is from 1 to 8 (R198). -/
theorem padCount_header (e : Bits) :
    1#8 ≤ BitVec.ofNat 8 (padCount e) ∧ BitVec.ofNat 8 (padCount e) ≤ 8#8 := by
  have hpad : padCount e = 8 - e.length % 8 := rfl
  simp only [BitVec.le_def, BitVec.toNat_ofNat]
  omega

/-- The stream is a header byte and the data bytes (R197). -/
theorem packedStream_length (e : Bits) : (packedStream e).length = e.length / 8 + 2 := by
  rw [packedStream, List.length_cons, dataBytes_length]

/-- Settles O29: the bytes appended are the packed stream of the encoded text. -/
theorem packOutputLength : Obligations.PackOutputLength := by
  intro s hp hne hcoded
  have hlen := packedStream_length (encodedText s)
  obtain ⟨hlow, hhigh⟩ := padCount_header (encodedText s)
  refine ⟨_, _, dataBytes (encodedText s), exec_pack hp, ?_, hlen, ?_, hlow, hhigh⟩
  · rw [packRule_of_coded hne hcoded]
    rfl
  · exact (Nat.le_add_left 2 _).trans_eq hlen.symm

/-! ### The encoded length -/

/-- Every code of a table BUILD derives has at most 255 bits, so the encoded text has at most 255
for each buffered symbol (R194). -/
theorem encodedText_length_le {s : State} (hcode : s.code = codeTable s.freq) :
    (encodedText s).length ≤ 255 * s.symLen := by
  have hbits : ∀ n ∈ s.sym.map fun x => (tableGet s.code x).length, n ≤ 255 := by
    intro n hn
    obtain ⟨x, _, rfl⟩ := List.mem_map.1 hn
    rw [hcode]
    exact codeTable_length_le s.freq x
  have hsum := List.sum_le_card_nsmul _ _ hbits
  rw [List.length_map, smul_eq_mul, Nat.mul_comm] at hsum
  rwa [encodedText, List.length_flatMap]

/-- In READY the encoded length of a machine in the ranges of R9 fits a word: it is at most
255 · SYM_CAP (R194). -/
theorem encodedText_length_lt {s : State} (hwf : s.cfg.wf = true) (hinv : s.Inv)
    (hp : s.phase = .ready) : (encodedText s).length < 2 ^ 32 := by
  obtain ⟨hphase, htable⟩ := hinv
  have hle := encodedText_length_le (htable.derived (hphase.table (.inl hp)).1)
  have hsym := hphase.symLen
  have hcap := symCap_le_of_wf hwf
  omega

/-- Settles O30: PACK stays in READY only when it appends the stream, and then RESULT is the encoded
length in a word. -/
theorem packResultIsExact : Obligations.PackResultIsExact := by
  intro s t hwf hinv hp hexec ht
  obtain rfl := Host.Outcome.next.inj ((exec_pack hp).symm.trans hexec)
  rcases packRule_cases s with ⟨_, e⟩ | ⟨_, _, _, _, _, _, e⟩ | ⟨_, _, e⟩
  · simp [e] at ht
  · simp [e] at ht
  · rw [e, codesOf_eq]
    exact (BitVec.toNat_ofNat _ _).trans (Nat.mod_eq_of_lt (encodedText_length_lt hwf hinv hp))

end Sys2Proof.Machine
end

section
/-! SUPPORT. The unpacker (spec/44_bit_unpacker.md): the matcher as the specification's scan, UNPK
and UEND by what the scan gives, a whole stream as one scan, and the round trip with PACK (R211 to
R214, R216, R220). -/

namespace Sys2Proof.Machine

open Sys2Proof.Spec

/-! ### The matcher is the specification's scan (R176, R211) -/

theorem rev_eq_symbolOf (t : Table Bits) (c : Bits) : rev t c = symbolOf t c := by
  have hempty : ∀ l : Bits, (l != []) = !l.isEmpty := fun l => by cases l <;> rfl
  simp [rev, symbolOf, tableEntries_eq, List.find?_map, Function.comp_def, hempty]

/-- Two scans, the second of the bits that follow, from the candidate the first left. -/
def scanThen (r r' : Scan) : Scan := ⟨r.emitted ++ r'.emitted, r'.cand, r'.overflow⟩

section
variable {code : Table Bits} {n : Nat} {c : Bits} {t : Bool} (ts : Bits)

theorem scan_cons_of_match {x : Byte} (h : symbolOf code (c ++ [t]) = some x) :
    scan code n c (t :: ts) = scanThen ⟨[x], [], false⟩ (scan code n [] ts) := by
  rw [scan, h]
  rfl

theorem scan_cons_of_full (h : symbolOf code (c ++ [t]) = none) (hlen : (c ++ [t]).length = n) :
    scan code n c (t :: ts) = ⟨[], c ++ [t], true⟩ := by
  rw [scan, h]
  exact if_pos hlen

theorem scan_cons_of_grows (h : symbolOf code (c ++ [t]) = none) (hlen : (c ++ [t]).length ≠ n) :
    scan code n c (t :: ts) = scan code n (c ++ [t]) ts := by
  rw [scan, h]
  exact if_neg hlen

end

/-- How a fed bit string ends, by the scan `r` it makes. -/
def flowOf (opc : Byte) (s : State) (r : Scan) : Flow :=
  if r.overflow then .raised (raise opc .corruptedStream .candOverflow 0#8 (scanned s r))
  else .goes (scanned s r)

theorem flowOf_of_goes {opc : Byte} {s : State} {r : Scan} (h : r.overflow = false) :
    flowOf opc s r = .goes (scanned s r) := by
  rw [flowOf, h]; rfl

theorem flowOf_of_overflow {opc : Byte} {s : State} {r : Scan} (h : r.overflow = true) :
    flowOf opc s r = .raised (raise opc .corruptedStream .candOverflow 0#8 (scanned s r)) := by
  rw [flowOf, if_pos h]

/-- The symbol a scan begins with is emitted as the matcher emits it. -/
theorem flowOf_scanThen (opc : Byte) (s : State) (x : Byte) (r : Scan) :
    flowOf opc s (scanThen ⟨[x], [], false⟩ r) =
      flowOf opc { s with out := s.out ++ [x], dcount := s.dcount + 1#32, cand := [] } r := by
  simp [flowOf, scanned, scanThen, add_assoc, add_comm (1#32), BitVec.ofNat_add]

/-- Feeding a bit string is scanning it. -/
theorem feedAll_eq_flowOf (opc : Byte) (ts : Bits) (s : State) :
    feedAll opc ts s = flowOf opc s (scan s.code s.maxLen.toNat s.cand ts) := by
  induction ts generalizing s with
  | nil => simp [feedAll, scan, flowOf, scanned]
  | cons b ts ih =>
    rw [feedAll]
    rcases feed_cases opc b s with ⟨x, hrev, e⟩ | ⟨hrev, hlen, e⟩ | ⟨hrev, hlen, e⟩ <;>
      rw [rev_eq_symbolOf] at hrev <;> rw [e]
    · rw [scan_cons_of_match ts hrev, flowOf_scanThen]
      exact ih _
    · rw [scan_cons_of_full ts hrev hlen]
      simp [flowOf, scanned]
    · rw [scan_cons_of_grows ts hrev hlen]
      exact ih _

/-! ### UNPK (R212, R213) -/

/-- A well-formed command that acts in READY and DEC is its rule there (R241). -/
theorem exec_of_ready_or_dec {i : Instr} {s : State} (hw : i.wellFormed = true)
    (hi : ∀ p, actsIn i p = (p == .ready || p == .dec)) (hp : s.phase = .ready ∨ s.phase = .dec) :
    exec i s = .next (ruleOf i s) :=
  exec_of_actsIn hw (by rcases hp with hp | hp <;> simp [hp]) (by simpa [hi] using hp)

theorem exec_unpk {s : State} (b : Byte) (hp : s.phase = .ready ∨ s.phase = .dec) :
    exec (.unpk b) s = .next (unpkRule b s) :=
  exec_of_ready_or_dec rfl (fun _ => rfl) hp

/-- Settles O32: in READY the byte is the header. -/
theorem unpkTakesHeader : Obligations.UnpkTakesHeader := by
  intro s b hp
  rw [exec_unpk b (.inl hp), unpkRule, if_pos hp]
  rcases unpkHeader_cases b s with ⟨hlow, hhigh, e⟩ | ⟨hout, e⟩ <;> rw [e]
  · refine ⟨fun _ _ => by rw [BitVec.ofNat_toNat], fun h => ?_⟩
    bv_omega
  · refine ⟨fun hlow hhigh => absurd ⟨?_, ?_⟩ hout, fun _ => rfl⟩ <;> bv_omega

/-- The bits that wait for the next UNPK: those of the held byte, if one is held (R38). -/
def State.heldBits (s : State) : Bits := if s.dheldV then bits8 s.dheld else []

/-- In DEC, UNPK feeds the waiting bits and holds its byte. -/
theorem exec_unpk_of_dec {s : State} (b : Byte) (hp : s.phase = .dec) :
    exec (.unpk b) s = .next
      ((flowOf 0x06#8 s (scan s.code s.maxLen.toNat s.cand s.heldBits)).andThen
        fun t => { t with dheld := b, dheldV := true }) := by
  rw [exec_unpk b (.inr hp), unpkRule, if_neg (by simp [hp]), unpkData, ← feedAll_eq_flowOf,
    State.heldBits]
  cases s.dheldV <;> rfl

/-- `s` once the scan `r` of its waiting bits has gone through and `b` is held. -/
def heldAfter (s : State) (r : Scan) (b : Byte) : State :=
  { scanned s r with dheld := b, dheldV := true }

/-- UNPK in DEC, where the scan of the waiting bits goes through. -/
theorem exec_unpk_of_goes {s : State} {r : Scan} (b : Byte) (hp : s.phase = .dec)
    (hr : r = scan s.code s.maxLen.toNat s.cand s.heldBits) (h : r.overflow = false) :
    exec (.unpk b) s = .next (heldAfter s r b) := by
  rw [exec_unpk_of_dec b hp, ← hr, flowOf_of_goes h]
  rfl

/-- UNPK in DEC, where the scan of the waiting bits overflows. -/
theorem exec_unpk_of_overflow {s : State} {r : Scan} (b : Byte) (hp : s.phase = .dec)
    (hr : r = scan s.code s.maxLen.toNat s.cand s.heldBits) (h : r.overflow = true) :
    exec (.unpk b) s = .next (errorState (scanned s r) .corruptedStream 0#8 4#8 0x06#8) := by
  rw [exec_unpk_of_dec b hp, ← hr, flowOf_of_overflow h]
  rfl

/-- Settles O33: with no byte held there is nothing to scan, and otherwise the held byte is. -/
theorem unpkDecodesHeldByte : Obligations.UnpkDecodesHeldByte := by
  refine fun s b hp => ⟨fun hv => ?_, fun hv r hr => ?_⟩
  · have hheld : s.heldBits = [] := by simp [State.heldBits, hv]
    rw [exec_unpk_of_goes b hp rfl] <;> simp [hheld, scan, scanned, heldAfter]
  · have hheld : msbFirst s.dheld = s.heldBits := by simp [State.heldBits, hv, msbFirst_eq]
    rw [hheld] at hr
    exact ⟨exec_unpk_of_goes b hp hr, exec_unpk_of_overflow b hp hr⟩

/-! ### UEND (R214, R220) -/

theorem exec_uend {s : State} (hp : s.phase = .ready ∨ s.phase = .dec) :
    exec .uend s = .next (uendRule s) :=
  exec_of_ready_or_dec rfl (fun _ => rfl) hp

/-- In DEC with a byte held, UEND feeds its first 8 − p bits and checks the end of the stream. -/
theorem exec_uend_of_dec {s : State} (hp : s.phase = .dec) (hv : s.dheldV = true) :
    exec .uend s = .next
      ((flowOf 0x07#8 s (scan s.code s.maxLen.toNat s.cand
        ((msbFirst s.dheld).take (8 - s.dpad.toNat)))).andThen uendFinish) := by
  rw [exec_uend (.inr hp), uendRule, if_neg (by simp [hp]), if_neg (by simp [hv]),
    feedAll_eq_flowOf]
  rfl

/-- Settles O34: the checks of R214 in their order; the matcher's part is the scan. -/
theorem uendEndsStream : Obligations.UendEndsStream := by
  refine fun s => ⟨fun hp => ?_, fun hp hv => ?_, fun hp hv r hr => ?_⟩
  · rw [exec_uend (.inl hp), uendRule, if_pos hp]
    rfl
  · rw [exec_uend (.inr hp), uendRule, if_neg (by simp [hp]), if_pos hv]
    rfl
  · rw [exec_uend_of_dec hp hv, ← hr]
    refine ⟨fun ho => ?_, fun ho hc => ?_, fun ho hc => ?_⟩
    · rw [flowOf_of_overflow ho]
      rfl
    · have hcand : (scanned s r).cand ≠ [] := hc
      rw [flowOf_of_goes ho, Flow.andThen, uendFinish, if_pos hcand]
      rfl
    · have hcand : ¬ (scanned s r).cand ≠ [] := not_not_intro hc
      rw [flowOf_of_goes ho, Flow.andThen, uendFinish, if_neg hcand]
      rfl

/-- Settles O35: the two states scan the same bits, so they end in the same case of R214. -/
theorem uendIgnoresPaddingBits : Obligations.UendIgnoresPaddingBits := by
  intro s t d hp hv hbits hexec
  obtain ⟨-, -, hs⟩ := uendEndsStream s
  obtain ⟨-, -, hd⟩ := uendEndsStream { s with dheld := d }
  have hs := hs hp hv _ rfl
  have hd := hd hp hv _ (congrArg _ hbits.symm)
  generalize scan s.code s.maxLen.toNat s.cand ((msbFirst s.dheld).take (8 - s.dpad.toNat)) = r
    at hs hd
  obtain ⟨hsOverflow, hsLeft, hsEnd⟩ := hs
  obtain ⟨hdOverflow, hdLeft, hdEnd⟩ := hd
  cases ho : r.overflow with
  | true =>
    obtain rfl := Host.Outcome.next.inj ((hsOverflow ho).symm.trans hexec)
    exact hdOverflow ho
  | false =>
    by_cases hc : r.cand = []
    · obtain rfl := Host.Outcome.next.inj ((hsEnd ho hc).symm.trans hexec)
      exact hdEnd ho hc
    · obtain rfl := Host.Outcome.next.inj ((hsLeft ho hc).symm.trans hexec)
      exact hdLeft ho hc

/-! ### A stream is one scan (R216) -/

/-- The bits that follow are scanned unless the candidate has overflowed before them. -/
theorem scan_append (code : Table Bits) (n : Nat) (c ts us : Bits) :
    scan code n c (ts ++ us) =
      if (scan code n c ts).overflow then scan code n c ts
      else scanThen (scan code n c ts) (scan code n (scan code n c ts).cand us) := by
  induction ts generalizing c with
  | nil => rfl
  | cons t ts ih =>
    rw [List.cons_append]
    cases hx : symbolOf code (c ++ [t]) with
    | some x =>
      rw [scan_cons_of_match _ hx, scan_cons_of_match _ hx, ih]
      cases h : (scan code n [] ts).overflow <;> simp [scanThen, h]
    | none =>
      by_cases hlen : (c ++ [t]).length = n
      · rw [scan_cons_of_full _ hx hlen, scan_cons_of_full _ hx hlen, if_pos rfl]
      · rw [scan_cons_of_grows _ hx hlen, scan_cons_of_grows _ hx hlen, ih]

/-- The rest of a stream, read in `s` as the scan `r`, ends in `t`: without error exactly on a code
boundary, and then with the symbols of the scan appended and counted. -/
structure EndsWith (s : State) (r : Scan) (t : State) : Prop where
  phase : t.phase = .ready ↔ r.overflow = false ∧ r.cand = []
  err : t.phase = .ready → t.err = s.err
  out : t.phase = .ready → t.out = s.out ++ r.emitted
  result : t.phase = .ready → t.result = s.dcount + BitVec.ofNat 32 r.emitted.length

theorem EndsWith.of_error {s t : State} {r : Scan} (ht : t.phase = .error)
    (hr : ¬ (r.overflow = false ∧ r.cand = [])) : EndsWith s r t := by
  constructor <;> simp [ht, hr]

/-- What ends the rest of a stream after UNPK ends it from before UNPK. -/
theorem EndsWith.of_unpk {s t : State} {r r' : Scan} {b : Byte}
    (h : EndsWith (heldAfter s r b) r' t) : EndsWith s (scanThen r r') t where
  phase := h.phase
  err := h.err
  out ht := by rw [h.out ht]; exact List.append_assoc ..
  result ht := by
    rw [h.result ht]
    simp [heldAfter, scanned, scanThen, add_assoc, BitVec.ofNat_add]

/-- UEND ends the stream with the scan of the first 8 − p bits of the held byte. -/
theorem exec_uend_endsWith {s : State} (hp : s.phase = .dec) (hv : s.dheldV = true) :
    ∃ t, exec .uend s = .next t ∧ EndsWith s
      (scan s.code s.maxLen.toNat s.cand ((msbFirst s.dheld).take (8 - s.dpad.toNat))) t := by
  obtain ⟨-, -, hs⟩ := uendEndsStream s
  have hs := hs hp hv _ rfl
  generalize scan s.code s.maxLen.toNat s.cand ((msbFirst s.dheld).take (8 - s.dpad.toNat)) = r
    at hs ⊢
  obtain ⟨hOverflow, hLeft, hEnd⟩ := hs
  cases ho : r.overflow with
  | true => exact ⟨_, hOverflow ho, .of_error rfl (by simp [ho])⟩
  | false =>
    by_cases hc : r.cand = []
    · exact ⟨_, hEnd ho hc, by simp [ho, hc], fun _ => rfl, fun _ => rfl, fun _ => rfl⟩
    · exact ⟨_, hLeft ho hc, .of_error rfl (by simp [hc])⟩

/-- In ERROR a well-formed command that does not act there is ignored (R272). -/
theorem exec_of_error {i : Instr} {s : State} (hw : i.wellFormed = true) (hp : s.phase = .error)
    (ha : actsInError i s = false) : exec i s = .next s := by
  rw [exec_eq_gated hw, gated_ignored hp ha]

/-- In ERROR the rest of a stream is ignored. -/
theorem execAll_stream_of_error {s : State} (hp : s.phase = .error) (l : List Byte) :
    execAll (l.map .unpk ++ [.uend]) s = some s := by
  induction l with
  | nil => simp [execAll, exec_of_error (i := .uend) rfl hp rfl]
  | cons b l ih => simpa [execAll, exec_of_error (i := .unpk b) rfl hp rfl] using ih

/-- One UNPK in DEC, followed by the rest of a stream: if the scan of the waiting bits goes through,
the rest is read from where it stopped, and otherwise the rest is ignored. -/
theorem execAll_unpk_endsWith {s : State} {b : Byte} {l : List Byte} {us : Bits}
    (hp : s.phase = .dec)
    (hrest : ∀ r : Scan,
      ∃ t, execAll (l.map .unpk ++ [.uend]) (heldAfter s r b) = some t ∧
        EndsWith (heldAfter s r b) (scan s.code s.maxLen.toNat r.cand us) t) :
    ∃ t, execAll ((b :: l).map .unpk ++ [.uend]) s = some t ∧
      EndsWith s (scan s.code s.maxLen.toNat s.cand (s.heldBits ++ us)) t := by
  simp only [List.map_cons, List.cons_append, execAll]
  cases ho : (scan s.code s.maxLen.toNat s.cand s.heldBits).overflow with
  | true =>
    rw [exec_unpk_of_overflow b hp rfl ho, scan_append, if_pos ho]
    exact ⟨_, execAll_stream_of_error rfl l, .of_error rfl (by simp [ho])⟩
  | false =>
    rw [exec_unpk_of_goes b hp rfl ho, scan_append, ho]
    obtain ⟨t, hrun, ht⟩ := hrest (scan s.code s.maxLen.toNat s.cand s.heldBits)
    exact ⟨t, hrun, ht.of_unpk⟩

/-- Data bytes and UEND from DEC are one scan of the waiting bits and the bytes' bits, without the
last p. -/
theorem execAll_data_endsWith {s : State} (hp : s.phase = .dec) (ds : List Byte) (d : Byte) :
    ∃ t, execAll ((ds ++ [d]).map .unpk ++ [.uend]) s = some t ∧
      EndsWith s (scan s.code s.maxLen.toNat s.cand
        (s.heldBits ++ (ds.flatMap msbFirst ++ (msbFirst d).take (8 - s.dpad.toNat)))) t := by
  induction ds generalizing s with
  | nil =>
    refine execAll_unpk_endsWith (l := []) hp fun r => ?_
    obtain ⟨t, hexec, ht⟩ := exec_uend_endsWith (s := heldAfter s r d) hp rfl
    exact ⟨t, by simp [execAll, hexec], ht⟩
  | cons b ds ih =>
    refine execAll_unpk_endsWith (l := ds ++ [d]) hp fun r => ?_
    rw [List.flatMap_cons, List.append_assoc]
    exact ih (s := heldAfter s r b) hp

/-- A whole stream from READY is one scan of its data bits, without the last p. -/
theorem execAll_stream_endsWith {u : State} {p : Byte} (hp : u.phase = .ready) (hlow : 1 ≤ p.toNat)
    (hhigh : p.toNat ≤ 8) (ds : List Byte) (d : Byte) :
    ∃ t, execAll ((p :: ds ++ [d]).map .unpk ++ [.uend]) u = some t ∧
      EndsWith { u with dcount := 0#32 } (scan u.code u.maxLen.toNat []
        (ds.flatMap msbFirst ++ (msbFirst d).take (8 - p.toNat))) t := by
  have hpad : (BitVec.ofNat 4 p.toNat).toNat = p.toNat := by
    rw [BitVec.toNat_ofNat]
    omega
  obtain ⟨t, hrun, ht⟩ := execAll_data_endsWith (s := { u with
    phase := .dec, dpad := BitVec.ofNat 4 p.toNat, dheldV := false, dheld := 0#8, cand := [],
    dcount := 0#32 }) rfl ds d
  simp only [State.heldBits, Bool.false_eq_true, if_false, List.nil_append, hpad] at ht
  refine ⟨t, ?_, ht.phase, ht.err, ht.out, ht.result⟩
  simpa only [List.cons_append, List.map_cons, execAll,
    (unpkTakesHeader u p hp).1 hlow hhigh] using hrun

/-- Settles O38: the whole stream is one scan, and DCOUNT starts at 0. -/
theorem streamDecodesLikeSource : Obligations.StreamDecodesLikeSource := by
  intro u p ds d hp hlow hhigh
  obtain ⟨t, hrun, ht⟩ := execAll_stream_endsWith hp hlow hhigh ds d
  refine ⟨t, hrun, ?_⟩
  rintro r rfl
  exact ⟨ht.phase, fun h => ⟨ht.out h, (ht.result h).trans (BitVec.zero_add _)⟩⟩

/-! ### The round trip with PACK (R216) -/

section
variable {u : State} (htable : u.TableInv) (htv : u.tv = true)
include htable htv

theorem symbolOf_code {x : Byte} (hx : tableGet u.code x ≠ []) :
    symbolOf u.code (tableGet u.code x) = some x := by
  rw [← rev_eq_symbolOf]
  exact reverseMapInvertsCodes u x htable htv hx

/-- What a code properly continues is no symbol's code (R174). -/
theorem symbolOf_of_continues {x : Byte} {c ts : Bits} (hts : ts ≠ [])
    (hcode : c ++ ts = tableGet u.code x) : symbolOf u.code c = none := by
  rw [← rev_eq_symbolOf, Option.eq_none_iff_forall_ne_some]
  intro y hrev
  obtain ⟨hy, hne⟩ := rev_eq_some hrev
  have hx : tableGet u.code x ≠ [] := by simp [← hcode, hts]
  have hprefix : tableGet u.code y <+: tableGet u.code x := ⟨ts, by rw [hy, hcode]⟩
  have hyx : y ≠ x := by
    rintro rfl
    exact hts (List.append_right_eq_self.1 (hcode.trans hy))
  rw [← hy] at hne
  rw [htable.derived htv] at hne hx hprefix
  exact codeTable_not_prefix hyx hne hx hprefix

/-- What a code properly continues has fewer than MAXLEN bits (R173). -/
theorem length_lt_maxLen_of_continues {x : Byte} {c ts : Bits} (hts : ts ≠ [])
    (hcode : c ++ ts = tableGet u.code x) : c.length < u.maxLen.toNat := by
  have hle := length_le_maxCodeLen u.code x
  have hpos := List.length_pos_iff.2 hts
  rw [← htable.longest htv, ← hcode, List.length_append] at hle
  omega

/-- The matcher reads a code to its end and emits its symbol. -/
theorem scan_code {x : Byte} {c ts : Bits} (us : Bits) (hts : ts ≠ [])
    (hcode : c ++ ts = tableGet u.code x) :
    scan u.code u.maxLen.toNat c (ts ++ us) =
      scanThen ⟨[x], [], false⟩ (scan u.code u.maxLen.toNat [] us) := by
  induction ts generalizing c with
  | nil => exact absurd rfl hts
  | cons t ts ih =>
    rw [List.append_cons] at hcode
    rw [List.cons_append]
    by_cases hend : ts = []
    · rw [hend, List.append_nil] at hcode
      have hx : tableGet u.code x ≠ [] := by simp [← hcode]
      rw [hend, scan_cons_of_match _ (hcode ▸ symbolOf_code htable htv hx), List.nil_append]
    · have hlen := length_lt_maxLen_of_continues htable htv hend hcode
      rw [scan_cons_of_grows _ (symbolOf_of_continues htable htv hend hcode) hlen.ne]
      exact ih hend hcode

/-- The scan of the concatenated codes of coded symbols gives the symbols back. -/
theorem scan_codesOf {l : List Byte} (hl : ∀ x ∈ l, tableGet u.code x ≠ []) :
    scan u.code u.maxLen.toNat [] (codesOf u.code l) = ⟨l, [], false⟩ := by
  induction l with
  | nil => rfl
  | cons x l ih =>
    have hstep := scan_code htable htv (codesOf u.code l) (hl x (by simp)) (List.nil_append _)
    rw [ih fun y hy => hl y (by simp [hy])] at hstep
    exact hstep

end

/-- The data bytes of a text, the last apart: without the padding of the last their bits are the
text (R193). -/
theorem exists_dataBytes_eq (e : Bits) :
    ∃ ds d, dataBytes e = ds ++ [d] ∧
      ds.flatMap bits8 ++ (bits8 d).take (8 - padCount e) = e := by
  have hne : dataBytes e ≠ [] := List.ne_nil_of_length_pos (by rw [dataBytes_length]; omega)
  have hbits := flatMap_bits8_dataBytes e
  rw [← List.dropLast_concat_getLast hne] at hbits
  refine ⟨_, _, (List.dropLast_concat_getLast hne).symm, ?_⟩
  generalize (dataBytes e).dropLast = ds at hbits ⊢
  generalize (dataBytes e).getLast hne = d at hbits ⊢
  have hsplit : (ds.flatMap bits8 ++ (bits8 d).take (8 - padCount e)) ++
      (bits8 d).drop (8 - padCount e) = e ++ List.replicate (padCount e) false := by
    simpa using hbits
  refine (List.append_inj' hsplit ?_).1
  have hpad : padCount e = 8 - e.length % 8 := rfl
  simp only [List.length_drop, bits8_length, List.length_replicate]
  omega

/-- Where FREQ counts the buffer, the table BUILD derives from it codes the buffered symbols. -/
theorem coded_of_countsSym {s : State} (hcount : s.CountsSym) {x : Byte} (hx : x ∈ s.sym) :
    tableGet (codeTable s.freq) x ≠ [] := by
  rw [codeTable_ne_nil, mem_countedKeys]
  intro hzero
  have hpos := List.count_pos_iff.2 hx
  rw [← hcount x, hzero] at hpos
  exact absurd hpos (lt_irrefl 0)

/-- Settles O39: the stream's bits without its padding are the codes of the buffer, and their scan
gives the buffer back. -/
theorem packUnpackRoundTrip : Obligations.PackUnpackRoundTrip := by
  intro s u hs hsp hcount hne hu hup hfreq
  obtain ⟨⟨hstv, -⟩, -⟩ := (phaseInv_iff_of_ready hsp).1 hs.1
  obtain ⟨⟨hutv, -⟩, -, huerr, -⟩ := (phaseInv_iff_of_ready hup).1 hu.1
  have hscode := hs.2.derived hstv
  have hucode : u.code = s.code := by rw [hu.2.derived hutv, hfreq, hscode]
  have hcoded : ∀ x ∈ s.sym, tableGet s.code x ≠ [] := fun x hx =>
    hscode ▸ coded_of_countsSym hcount hx
  obtain ⟨ds, d, hdata, hbits⟩ := exists_dataBytes_eq (encodedText s)
  obtain ⟨hlow, hhigh⟩ := padCount_header (encodedText s)
  have hpad : (BitVec.ofNat 8 (padCount (encodedText s))).toNat = padCount (encodedText s) :=
    Nat.mod_eq_of_lt (by unfold padCount; omega)
  obtain ⟨v, hrun, hv⟩ := execAll_stream_endsWith hup hlow hhigh ds d
  have hscan := scan_codesOf hu.2 hutv (l := s.sym) (by rwa [hucode])
  rw [msbFirst_eq, hpad, hbits, ← codesOf_eq, ← hucode, hscan] at hv
  have hready := hv.phase.2 ⟨rfl, rfl⟩
  refine ⟨_, packedStream (encodedText s), v, exec_pack hsp, ?_, ?_, hv.out hready,
    (hv.result hready).trans (BitVec.zero_add _), hready, (hv.err hready).trans huerr⟩
  · rw [packRule_of_coded hne hcoded]
  · rw [packedStream, hdata]
    exact hrun

end Sys2Proof.Machine
end

section
/-! SUPPORT. The sequencer (spec/45_control.md): NOP, the phase changes of R245, and what each
command leaves in RESULT (R242, R244, R245). -/

namespace Sys2Proof.Machine

open Sys2Proof.Spec

/-! ### NOP (R242) -/

theorem eq_nop_of_opcode {i : Instr} (h : i.opcode = 0#8) : i = .nop := by
  cases i with
  | nop => rfl
  | _ => exact absurd h (by simp [Instr.opcode])

/-- Settles O12: a word that decodes is the word of its command, and NOP's opcode is its own. In
ERROR NOP is ignored, and elsewhere its rule is the identity. -/
theorem nopHasNoEffect : Obligations.NopHasNoEffect := by
  refine ⟨fun w hopc => ⟨?_, ?_⟩, rfl, fun s => ?_⟩
  · rintro ⟨i, hi⟩
    obtain ⟨-, rfl⟩ := encode_of_decode hi
    obtain rfl := eq_nop_of_opcode ((fieldOpc_encode i).symm.trans hopc)
    rfl
  · rintro rfl
    exact ⟨.nop, rfl⟩
  · by_cases hp : s.phase = .error
    · exact exec_of_error rfl hp rfl
    · exact exec_of_actsIn rfl hp (bne_iff_ne.2 hp)

/-! ### What a command can do -/

/-- A command is ignored in ERROR, raises SEQUENCE or ILLEGAL_COMMAND, or acts by its rule. -/
theorem exec_cases {i : Instr} {s t : State} (h : exec i s = .next t) :
    (s.phase = .error ∧ t = s) ∨
    (s.phase ≠ .error ∧ ∃ opc e, t = raise opc e .none 0#8 s) ∨
    (acts i s ∧ t = ruleOf i s) := by
  cases hw : i.wellFormed with
  | false =>
    obtain rfl := Host.Outcome.next.inj ((exec_illFormed hw s).symm.trans h)
    rcases illegalWord_cases i.opcode s with ⟨hp, e⟩ | ⟨hp, e⟩
    · exact .inl ⟨hp, e⟩
    · exact .inr (.inl ⟨hp, _, _, e⟩)
  | true =>
    obtain rfl := Host.Outcome.next.inj ((exec_eq_gated hw s).symm.trans h)
    rcases gated_cases i (ruleOf i) s with ⟨hp, ha, e⟩ | ⟨hp, _, e⟩ | ⟨hp, ha, e⟩ | ⟨hp, _, e⟩
    · exact .inr (.inr ⟨.inr ⟨hp, ha⟩, e⟩)
    · exact .inl ⟨hp, e⟩
    · exact .inr (.inr ⟨.inl ⟨hp, ha⟩, e⟩)
    · exact .inr (.inl ⟨hp, _, _, e⟩)

/-- Only CLR and DRST act in ERROR (R272). -/
theorem phase_ne_error_of_acts {i : Instr} {s : State} (ha : acts i s)
    (he : actsInError i s = false) : s.phase ≠ .error := by
  rcases ha with ⟨hp, _⟩ | ⟨_, ha⟩
  · exact hp
  · simp [he] at ha

theorem feedAll_goes_phase {opc : Byte} {ts : Bits} {s t : State}
    (h : feedAll opc ts s = .goes t) : t.phase = s.phase := by
  obtain ⟨l, e⟩ := feedAll_goes h
  rw [e]

theorem feedAll_raised_phase {opc : Byte} {ts : Bits} {s t : State}
    (h : feedAll opc ts s = .raised t) : t.phase = .error := by
  obtain ⟨l, e⟩ := feedAll_raised h
  rw [e, raise_phase]

/-- A fed bit string leaves RESULT, whether it goes on or raises (R211). -/
theorem feedAll_result {opc : Byte} {ts : Bits} {s t : State}
    (h : feedAll opc ts s = .goes t ∨ feedAll opc ts s = .raised t) : t.result = s.result := by
  rcases h with h | h
  · obtain ⟨l, e⟩ := feedAll_goes h
    rw [e]
  · obtain ⟨l, e⟩ := feedAll_raised h
    rw [e, raise_result]

/-! ### The phase changes (R245) -/

/-- The phase stays, or changes from `s` to `t` as R245 lists for the word that decodes to `c`. -/
def PhaseListed (c : Except IllegalWord Instr) (s t : State) : Prop :=
  t.phase = s.phase ∨ phaseChange c s t

/-- ERROR is entered from every other phase. -/
theorem phaseListed_of_error {c : Except IllegalWord Instr} {s t : State}
    (ht : t.phase = .error) : PhaseListed c s t := by
  by_cases hp : s.phase = .error
  · exact .inl (ht.trans hp.symm)
  · exact .inr (by simp [phaseChange, hp, ht])

theorem putRule_phaseListed (x : Byte) (s : State) :
    PhaseListed (.ok (.put x)) s (putRule x s) := by
  rcases putRule_cases x s with ⟨_, e⟩ | ⟨_, _, e⟩ | ⟨_, _, e⟩ <;> rw [e]
  · exact phaseListed_of_error rfl
  · exact phaseListed_of_error rfl
  · exact .inl rfl

theorem buildRule_phaseListed {s : State} (hp : s.phase = .fill) :
    PhaseListed (.ok .build) s (buildRule s) := by
  rcases buildRule_cases s with ⟨_, e⟩ | ⟨_, e⟩ <;> rw [e]
  · exact phaseListed_of_error rfl
  · exact .inr (by simp [phaseChange, hp])

theorem packRule_phaseListed (s : State) : PhaseListed (.ok .pack) s (packRule s) := by
  rcases packRule_cases s with ⟨_, e⟩ | ⟨_, _, _, _, _, _, e⟩ | ⟨_, _, e⟩ <;> rw [e]
  · exact phaseListed_of_error rfl
  · exact phaseListed_of_error rfl
  · exact .inl rfl

theorem unpkRule_phaseListed (b : Byte) (s : State) :
    PhaseListed (.ok (.unpk b)) s (unpkRule b s) := by
  unfold unpkRule
  split
  · next hp =>
    rcases unpkHeader_cases b s with ⟨hlow, hhigh, e⟩ | ⟨_, e⟩ <;> rw [e]
    · exact .inr (by simp [phaseChange, hp, hlow, hhigh])
    · exact phaseListed_of_error rfl
  · rcases unpkData_cases b s with ⟨_, e⟩ | ⟨_, t, hf, e⟩ | ⟨_, t, hf, e⟩ <;> rw [e]
    · exact .inl rfl
    · exact .inl (feedAll_goes_phase (t := t) hf)
    · exact phaseListed_of_error (feedAll_raised_phase hf)

theorem uendRule_phaseListed {s : State} (hp : s.phase = .ready ∨ s.phase = .dec) :
    PhaseListed (.ok .uend) s (uendRule s) := by
  rcases uendRule_cases s with ⟨_, e⟩ | ⟨_, _, e⟩ |
    ⟨hne, _, ⟨t, hf, e⟩ | ⟨t, _, _, e⟩ | ⟨t, _, _, e⟩⟩ <;> rw [e]
  · exact phaseListed_of_error rfl
  · exact phaseListed_of_error rfl
  · exact phaseListed_of_error (feedAll_raised_phase hf)
  · exact phaseListed_of_error rfl
  · exact .inr (by simp [phaseChange, hp.resolve_left hne])

theorem leaveToReady_phaseListed {s : State} (ha : acts .drst s) :
    PhaseListed (.ok .drst) s (leaveToReady s) := by
  rcases ha with ⟨_, ha⟩ | ⟨hp, htv⟩
  · have hp : s.phase = .ready ∨ s.phase = .dec := by simpa [actsIn] using ha
    exact .inr (by simp [phaseChange, hp])
  · have htv : s.tv = true := htv
    exact .inr (by simp [phaseChange, hp, htv])

/-- Every command's rule, where it acts, changes the phase only as R245 lists for it. -/
theorem ruleOf_phaseListed {i : Instr} {s : State} (ha : acts i s) :
    PhaseListed (.ok i) s (ruleOf i s) := by
  cases i with
  | clr => exact .inr (.inl ⟨rfl, rfl⟩)
  | put x => exact putRule_phaseListed x s
  | build => exact buildRule_phaseListed (phase_fill_of_acts ha (fun _ => rfl) rfl)
  | pack => exact packRule_phaseListed s
  | unpk b => exact unpkRule_phaseListed b s
  | uend => exact uendRule_phaseListed (phase_ready_or_dec_of_acts ha (fun _ => rfl) rfl)
  | drst => exact leaveToReady_phaseListed ha
  | nop | ldfreq | rdfreq | rdclen | rdcbits => exact .inl rfl

/-- Settles O40: of the steps only the dispatch of a pending word and the two edges of reset change
the phase. -/
theorem phaseTransitionsListed : Obligations.PhaseTransitionsListed := by
  intro s t h
  rcases step_next h with ⟨hr, rfl | ⟨rest, rfl⟩ | ⟨rest, rfl⟩⟩ |
    ⟨_, _, ⟨p, u, hp, hu, rfl⟩ | ⟨_, rfl⟩⟩ | ⟨hr, _, ⟨_, rfl⟩ | hc⟩
  · exact .inl rfl
  · exact .inr (.inl ⟨by simp [releaseReset, hr], rfl⟩)
  · exact .inl rfl
  · have hlisted : PhaseListed (decode p.word) s u :=
      dispatchWord_induction (P := PhaseListed (decode p.word) s) hu (.inl rfl)
        (fun _ _ _ => phaseListed_of_error rfl) fun i hi ha => hi ▸ ruleOf_phaseListed ha
    exact hlisted.imp_right fun hchange => .inr ⟨p, hp, hchange⟩
  · exact .inl rfl
  · exact .inl rfl
  · cases hc with
    | reset => exact .inr (.inl ⟨by simp [assertReset, hr], rfl⟩)
    | ignored | arg | ctrl | cmd | read | pop => exact .inl rfl

/-! ### RESULT (R244) -/

/-- What R244 says of RESULT for the command `i` leading from `s` to `t`. -/
def ResultListed (i : Instr) (s t : State) : Prop :=
  ((s.phase ≠ .error ∨ i = .clr ∨ i = .drst) → t.phase ≠ .error → resultAfter i s t) ∧
  (t.phase = .error → t.result = s.result)

theorem resultListed_of_error {i : Instr} {s t : State} (ht : t.phase = .error)
    (hresult : t.result = s.result) : ResultListed i s t :=
  ⟨fun _ hne => absurd ht hne, fun _ => hresult⟩

theorem resultListed_of_success {i : Instr} {s t : State} (ht : t.phase ≠ .error)
    (hresult : resultAfter i s t) : ResultListed i s t :=
  ⟨fun _ _ => hresult, fun he => absurd he ht⟩

theorem putRule_resultListed {s : State} (x : Byte) (hp : s.phase ≠ .error) :
    ResultListed (.put x) s (putRule x s) := by
  rcases putRule_cases x s with ⟨_, e⟩ | ⟨_, _, e⟩ | ⟨_, _, e⟩ <;> rw [e]
  · exact resultListed_of_error rfl rfl
  · exact resultListed_of_error rfl rfl
  · exact resultListed_of_success hp (tableGet_set_self _ _ _).symm

theorem buildRule_resultListed (s : State) : ResultListed .build s (buildRule s) := by
  rcases buildRule_cases s with ⟨_, e⟩ | ⟨_, e⟩ <;> rw [e]
  · exact resultListed_of_error rfl rfl
  · exact resultListed_of_success nofun (by rw [resultAfter, countedOf_eq])

theorem packRule_resultListed {s : State} (hp : s.phase ≠ .error) :
    ResultListed .pack s (packRule s) := by
  rcases packRule_cases s with ⟨_, e⟩ | ⟨_, _, _, _, _, _, e⟩ | ⟨_, _, e⟩ <;> rw [e]
  · exact resultListed_of_error rfl rfl
  · exact resultListed_of_error rfl rfl
  · exact resultListed_of_success hp (by rw [resultAfter, codesOf_eq])

/-- UNPK leaves RESULT, whether it succeeds or raises (R212). -/
theorem unpkRule_result (b : Byte) (s : State) : (unpkRule b s).result = s.result := by
  unfold unpkRule
  split
  · rcases unpkHeader_cases b s with ⟨_, _, e⟩ | ⟨_, e⟩ <;> rw [e]
    rfl
  · rcases unpkData_cases b s with ⟨_, e⟩ | ⟨_, t, hf, e⟩ | ⟨_, t, hf, e⟩ <;> rw [e]
    · exact feedAll_result (t := t) (.inl hf)
    · exact feedAll_result (.inr hf)

/-- UEND leaves the symbols decoded in the stream: those counted before, and those its own bits
append to OUT (R214). -/
theorem uendRule_resultListed (s : State) : ResultListed .uend s (uendRule s) := by
  rcases uendRule_cases s with ⟨_, e⟩ | ⟨_, _, e⟩ |
    ⟨_, _, ⟨t, hf, e⟩ | ⟨t, hf, _, e⟩ | ⟨t, hf, _, e⟩⟩ <;> rw [e]
  · exact resultListed_of_error rfl rfl
  · exact resultListed_of_error rfl rfl
  · exact resultListed_of_error (feedAll_raised_phase hf) (feedAll_result (.inr hf))
  · exact resultListed_of_error rfl (feedAll_result (t := t) (.inl hf))
  · obtain ⟨l, ht⟩ := feedAll_goes hf
    refine resultListed_of_success nofun ?_
    have hout : t.out = s.out ++ l := congrArg State.out ht
    have hcount : t.dcount = s.dcount + BitVec.ofNat 32 l.length := congrArg State.dcount ht
    simp [resultAfter, hout, hcount]

/-- Every command's rule, where it acts, leaves in RESULT what R244 says. -/
theorem ruleOf_resultListed {i : Instr} {s : State} (ha : acts i s) :
    ResultListed i s (ruleOf i s) := by
  cases i with
  | nop | ldfreq | drst => exact ⟨fun _ _ => rfl, fun _ => rfl⟩
  | unpk b => exact ⟨fun _ _ => unpkRule_result b s, fun _ => unpkRule_result b s⟩
  | clr => exact resultListed_of_success nofun rfl
  | put x => exact putRule_resultListed x (phase_ne_error_of_acts ha rfl)
  | build => exact buildRule_resultListed s
  | pack => exact packRule_resultListed (phase_ne_error_of_acts ha rfl)
  | uend => exact uendRule_resultListed s
  | rdfreq | rdclen => exact resultListed_of_success (phase_ne_error_of_acts ha rfl) rfl
  | rdcbits x k =>
    exact resultListed_of_success (phase_ne_error_of_acts ha rfl) (codeChunk_getLsbD _ _)

/-- Settles O41: an ignored command and a raise leave RESULT, and each command's rule leaves in it
what R244 says. -/
theorem resultOfEachCommand : Obligations.ResultOfEachCommand := by
  intro i s t h
  rcases exec_cases h with ⟨hp, rfl⟩ | ⟨_, opc, e, rfl⟩ | ⟨ha, rfl⟩
  · exact resultListed_of_error hp rfl
  · exact resultListed_of_error rfl rfl
  · exact ruleOf_resultListed ha

end Sys2Proof.Machine
end

section
/-! SUPPORT. Errors, the exits from ERROR and the interrupt line (spec/60_exceptions.md): every
raise of a command, the ERROR phase, and what each cause of an error leaves (R261 to R275, R280). -/

namespace Sys2Proof.Machine

open Sys2Proof.Spec

/-! ### Every raise of a command (R261, R262, R270) -/

/-- The code, detail and symbol with which a command may raise in the state `s` (R261, R262). -/
inductive RaiseListed (s : State) : Instr → ErrCode → Detail → Byte → Prop where
  | illegal {i : Instr} (hw : i.wellFormed = false) : RaiseListed s i .illegalCommand .none 0#8
  | sequence (i : Instr) : RaiseListed s i .sequence .none 0#8
  | symOverflow (x : Byte) : RaiseListed s (.put x) .symOverflow .none x
  | freqOverflow (x : Byte) : RaiseListed s (.put x) .freqOverflow .none x
  | noCounts : RaiseListed s .build .emptyInput .none 0#8
  | noSymbols : RaiseListed s .pack .emptyInput .none 0#8
  | noCode {x : Byte} (hx : x ∈ s.sym) : RaiseListed s .pack .noCode .none x
  | badHeader (b : Byte) : RaiseListed s (.unpk b) .corruptedStream .badHeader 0#8
  | unpkOverflow (b : Byte) : RaiseListed s (.unpk b) .corruptedStream .candOverflow 0#8
  | noHeader : RaiseListed s .uend .corruptedStream .noHeader 0#8
  | noData : RaiseListed s .uend .corruptedStream .noData 0#8
  | uendOverflow : RaiseListed s .uend .corruptedStream .candOverflow 0#8
  | leftover : RaiseListed s .uend .corruptedStream .leftover 0#8

/-- A command raises in the state it found, or, if it is UNPK or UEND, after a scan of some bits of
the stream (R13, R270). -/
inductive Raises (i : Instr) (s : State) : State → Prop where
  | atOnce {e : ErrCode} {d : Detail} {x : Byte} (h : RaiseListed s i e d x) :
      Raises i s (raise i.opcode e d x s)
  | scanning {e : ErrCode} {d : Detail} {x : Byte} (h : RaiseListed s i e d x) (r : Scan)
      (hi : (∃ b, i = .unpk b) ∨ i = .uend) : Raises i s (raise i.opcode e d x (scanned s r))

/-- A fed bit string that raises has been scanned up to an overflow (R211). -/
theorem feedAll_eq_raised {opc : Byte} {ts : Bits} {s t : State}
    (h : feedAll opc ts s = .raised t) :
    ∃ r, t = raise opc .corruptedStream .candOverflow 0#8 (scanned s r) := by
  obtain ⟨l, e⟩ := feedAll_raised h
  exact ⟨⟨l, t.cand, true⟩, e⟩

/-- A fed bit string that goes on has been scanned (R211). -/
theorem feedAll_eq_goes {opc : Byte} {ts : Bits} {s t : State} (h : feedAll opc ts s = .goes t) :
    ∃ r, t = scanned s r := by
  obtain ⟨l, e⟩ := feedAll_goes h
  exact ⟨⟨l, t.cand, false⟩, e⟩

theorem putRule_raises {x : Byte} {s : State} (hp : s.phase ≠ .error)
    (ht : (putRule x s).phase = .error) : Raises (.put x) s (putRule x s) := by
  rcases putRule_cases x s with ⟨_, e⟩ | ⟨_, _, e⟩ | ⟨_, _, e⟩ <;> rw [e] at ht ⊢
  · exact .atOnce (.symOverflow x)
  · exact .atOnce (.freqOverflow x)
  · exact absurd ht hp

theorem buildRule_raises {s : State} (ht : (buildRule s).phase = .error) :
    Raises .build s (buildRule s) := by
  rcases buildRule_cases s with ⟨_, e⟩ | ⟨_, e⟩ <;> rw [e] at ht ⊢
  · exact .atOnce .noCounts
  · cases ht

theorem packRule_raises {s : State} (hp : s.phase ≠ .error)
    (ht : (packRule s).phase = .error) : Raises .pack s (packRule s) := by
  rcases packRule_cases s with ⟨_, e⟩ | ⟨l, x, r, hsym, _, _, e⟩ | ⟨_, _, e⟩ <;> rw [e] at ht ⊢
  · exact .atOnce .noSymbols
  · exact .atOnce (.noCode (by simp [hsym]))
  · exact absurd ht hp

theorem unpkRule_raises {b : Byte} {s : State} (hp : s.phase ≠ .error)
    (ht : (unpkRule b s).phase = .error) : Raises (.unpk b) s (unpkRule b s) := by
  unfold unpkRule at ht ⊢
  split at ht
  · next hr =>
    rw [if_pos hr]
    rcases unpkHeader_cases b s with ⟨_, _, e⟩ | ⟨_, e⟩ <;> rw [e] at ht ⊢
    · cases ht
    · exact .atOnce (.badHeader b)
  · next hr =>
    rw [if_neg hr]
    rcases unpkData_cases b s with ⟨_, e⟩ | ⟨_, t, hf, e⟩ | ⟨_, t, hf, e⟩ <;> rw [e] at ht ⊢
    · exact absurd ht hp
    · exact absurd ((feedAll_goes_phase hf).symm.trans ht) hp
    · obtain ⟨r, rfl⟩ := feedAll_eq_raised hf
      exact .scanning (.unpkOverflow b) r (.inl ⟨b, rfl⟩)

theorem uendRule_raises {s : State} (ht : (uendRule s).phase = .error) :
    Raises .uend s (uendRule s) := by
  rcases uendRule_cases s with ⟨_, e⟩ | ⟨_, _, e⟩ |
    ⟨_, _, ⟨t, hf, e⟩ | ⟨t, hf, _, e⟩ | ⟨t, _, _, e⟩⟩ <;> rw [e] at ht ⊢
  · exact .atOnce .noHeader
  · exact .atOnce .noData
  · obtain ⟨r, rfl⟩ := feedAll_eq_raised hf
    exact .scanning .uendOverflow r (.inr rfl)
  · obtain ⟨r, rfl⟩ := feedAll_eq_goes hf
    exact .scanning .leftover r (.inr rfl)
  · cases ht

/-- A rule that enters ERROR raises as listed for its command. -/
theorem ruleOf_raises {i : Instr} {s : State} (hp : s.phase ≠ .error)
    (ht : (ruleOf i s).phase = .error) : Raises i s (ruleOf i s) := by
  cases i with
  | put x => exact putRule_raises hp ht
  | build => exact buildRule_raises ht
  | pack => exact packRule_raises hp ht
  | unpk b => exact unpkRule_raises hp ht
  | uend => exact uendRule_raises ht
  | clr | drst => cases ht
  | nop | ldfreq | rdfreq | rdclen | rdcbits => exact absurd ht hp

/-- A command that enters ERROR raises as listed for it. -/
theorem exec_raises {i : Instr} {s t : State} (hp : s.phase ≠ .error) (h : exec i s = .next t)
    (ht : t.phase = .error) : Raises i s t := by
  cases hw : i.wellFormed with
  | false =>
    obtain rfl := Host.Outcome.next.inj ((exec_illFormed hw s).symm.trans h)
    rw [illegalWord, if_neg hp]
    exact .atOnce (.illegal hw)
  | true =>
    obtain rfl := Host.Outcome.next.inj ((exec_eq_gated hw s).symm.trans h)
    cases ha : actsIn i s.phase with
    | false =>
      rw [gated_sequence hp ha]
      exact .atOnce (.sequence i)
    | true =>
      rw [gated_acts hp ha] at ht ⊢
      exact ruleOf_raises hp ht

theorem RaiseListed.err_ne_none {s : State} {i : Instr} {e : ErrCode} {d : Detail} {x : Byte}
    (h : RaiseListed s i e d x) : e ≠ .none := by
  cases h <;> exact nofun

/-- Settles O10: a raise writes PHASE, ERR and ERRINFO, in the state the command found or in one
that a scan has left. -/
theorem raiseKeepsEverythingElse : Obligations.RaiseKeepsEverythingElse := by
  intro i s t hp h ht
  cases exec_raises hp h ht with
  | atOnce hlisted =>
    exact ⟨hlisted.err_ne_none, ⟨_, _, rfl⟩, rfl, ⟨[], (List.append_nil _).symm⟩,
      .inr (.inr ⟨rfl, rfl, rfl⟩)⟩
  | scanning hlisted r hi =>
    exact ⟨hlisted.err_ne_none, ⟨_, _, rfl⟩, rfl, ⟨r.emitted, rfl⟩, hi.imp_right .inl⟩

/-- ERR and ERRINFO after a raise are one of the command's listed codes with its detail and symbol
(R47, R270). -/
theorem Raises.exists_listed {i : Instr} {s t : State} (h : Raises i s t) :
    ∃ e d x, RaiseListed s i e d x ∧ t.err = e ∧ t.errInfo = errInfoOf x d.bits i.opcode := by
  cases h with
  | atOnce hlisted => exact ⟨_, _, _, hlisted, rfl, rfl⟩
  | scanning hlisted => exact ⟨_, _, _, hlisted, rfl, rfl⟩

/-- Settles O11: the raises listed for a command, without that of an ill-formed term. -/
theorem errorCodesAndDetails : Obligations.ErrorCodesAndDetails := by
  intro i s t hw hp h ht
  obtain ⟨e, d, x, hlisted, herr, hinfo⟩ := (exec_raises hp h ht).exists_listed
  cases hlisted with
  | illegal hill => exact absurd hw (by simp [hill])
  | noCounts => exact .inl ⟨herr, .inl rfl, hinfo⟩
  | noSymbols => exact .inl ⟨herr, .inr rfl, hinfo⟩
  | badHeader b => exact .inr (.inl ⟨herr, ⟨b, rfl⟩, .inl hinfo⟩)
  | unpkOverflow b => exact .inr (.inl ⟨herr, ⟨b, rfl⟩, .inr hinfo⟩)
  | noHeader => exact .inr (.inr (.inl ⟨herr, rfl, .inl hinfo⟩))
  | noData => exact .inr (.inr (.inl ⟨herr, rfl, .inr (.inl hinfo)⟩))
  | uendOverflow => exact .inr (.inr (.inl ⟨herr, rfl, .inr (.inr (.inl hinfo))⟩))
  | leftover => exact .inr (.inr (.inl ⟨herr, rfl, .inr (.inr (.inr hinfo))⟩))
  | sequence => exact .inr (.inr (.inr (.inl ⟨herr, hinfo⟩)))
  | symOverflow => exact .inr (.inr (.inr (.inr (.inl ⟨x, .inl herr, rfl, hinfo⟩))))
  | freqOverflow => exact .inr (.inr (.inr (.inr (.inl ⟨x, .inr herr, rfl, hinfo⟩))))
  | noCode hx => exact .inr (.inr (.inr (.inr (.inr ⟨x, hx, herr, rfl, hinfo⟩))))

/-! ### Commands out of phase (R266) -/

/-- R241's cells with SEQUENCE are those outside ERROR where the command does not act. -/
theorem not_actsIn_of_outOfPhase {i : Instr} {p : Phase} (h : outOfPhase i p) :
    p ≠ .error ∧ actsIn i p = false := by
  cases i with
  | nop | clr | rdfreq => exact h.elim
  | put | ldfreq | build | pack => rcases h with rfl | rfl <;> exact ⟨nofun, rfl⟩
  | unpk | uend | rdclen | rdcbits | drst => obtain rfl := h; exact ⟨nofun, rfl⟩

/-- Settles O9: the gate raises SEQUENCE, and the command's word carries its opcode. -/
theorem outOfPhaseRaisesSequence : Obligations.OutOfPhaseRaisesSequence := by
  intro i s hw h
  obtain ⟨hp, ha⟩ := not_actsIn_of_outOfPhase h
  have hopc : (encode i).extractLsb' 0 8 = i.opcode := fieldOpc_encode i
  rw [exec_eq_gated hw, gated_sequence hp ha, hopc]
  rfl

/-! ### Words that are no command (R265, R272) -/

/-- The step that performs a pending word is the word's dispatch, then the end of the perform step
(R79). -/
theorem step_of_dispatchWord {s t : State} {p : Pending} (hs : blockTurnIn s)
    (hp : s.pending = some p) (h : dispatchWord p.word s = .next t) :
    step s = .next (finish t) := by
  rw [step_of_blockTurnIn hs]
  simp only [blockTurn, hp, perform, h]

/-- The same with the model's own counters set aside. -/
theorem stepsTo_of_dispatchWord {s t : State} {p : Pending} (hs : blockTurnIn s)
    (hp : s.pending = some p) (h : dispatchWord p.word s = .next t) :
    stepsTo s { t with pending := none, tail := true } := by
  have hstep := step_of_dispatchWord hs hp h
  exact ⟨Config.freeDelay t.draws, t.draws + 1, hstep⟩

theorem dispatchWord_of_decode {w : Word} {i : Instr} (h : decode w = .ok i) (s : State) :
    dispatchWord w s = exec i s := by
  rw [dispatchWord, h]

theorem dispatchWord_of_illegal {w : Word} (h : ¬ ∃ i, decode w = .ok i) (s : State) :
    dispatchWord w s = .next (illegalWord (fieldOpc w) s) := by
  cases hw : decode w with
  | ok i => exact absurd ⟨i, hw⟩ h
  | error e => rw [dispatchWord, hw]

/-- Settles O5: a word in no row does not decode, and outside ERROR its dispatch raises. -/
theorem illegalWordRaises : Obligations.IllegalWordRaises := by
  intro s p hs hpending hrows hp
  have hillegal : ¬ ∃ i, decode p.word = .ok i := fun hi => by
    obtain ⟨r, hr, hw⟩ := exists_row_of_decode hi
    exact hrows r hr hw
  refine stepsTo_of_dispatchWord hs hpending ?_
  rw [dispatchWord_of_illegal hillegal, illegalWord, if_neg hp]
  rfl

/-! ### The ERROR phase and its exits (R272, R274, R275) -/

/-- A well-formed command that acts is its rule (R241, R272). -/
theorem exec_of_acts {i : Instr} {s : State} (hw : i.wellFormed = true) (ha : acts i s) :
    exec i s = .next (ruleOf i s) := by
  rcases ha with ⟨hp, ha⟩ | ⟨hp, ha⟩
  · exact exec_of_actsIn hw hp ha
  · rw [exec_eq_gated hw, gated, if_pos hp, if_pos ha]

/-- DRST is ignored in ERROR without a table, like every command but CLR (R272). -/
theorem actsInError_eq_false {i : Instr} {s : State} (hclr : i ≠ .clr)
    (hdrst : i ≠ .drst ∨ s.tv = false) : actsInError i s = false := by
  cases i with
  | clr => exact absurd rfl hclr
  | drst => exact hdrst.resolve_left (absurd rfl)
  | _ => rfl

/-- In ERROR a word that is neither CLR nor an acting DRST is ignored, legal or not (R272). -/
theorem dispatchWord_of_error {w : Word} {s : State} (hp : s.phase = .error)
    (hclr : w ≠ encode .clr) (hdrst : w ≠ encode .drst ∨ s.tv = false) :
    dispatchWord w s = .next s := by
  by_cases h : ∃ i, decode w = .ok i
  · obtain ⟨i, hi⟩ := h
    obtain ⟨hwf, rfl⟩ := encode_of_decode hi
    rw [dispatchWord_of_decode hi]
    exact exec_of_error hwf hp (actsInError_eq_false (fun e => hclr (congrArg encode e))
      (hdrst.imp_left fun hne e => hne (congrArg encode e)))
  · rw [dispatchWord_of_illegal h, illegalWord, if_pos hp]

/-- Settles O8: CLR and an acting DRST are performed by their rules, and every other word is
ignored. -/
theorem errorPhaseIgnoresTheRest : Obligations.ErrorPhaseIgnoresTheRest := by
  intro s p hs hpending hp
  refine ⟨fun hw => ?_, fun hw htv => ?_, fun hclr hdrst => ?_⟩
  · have hi : decode p.word = .ok .clr := hw ▸ rfl
    exact ⟨_, stepPerformsPendingCommand s _ p .clr hs hpending hi (exec_clr s), rfl, rfl, rfl, rfl⟩
  · have hi : decode p.word = .ok .drst := hw ▸ rfl
    exact ⟨_, stepPerformsPendingCommand s _ p .drst hs hpending hi
      (exec_of_acts rfl (.inr ⟨hp, htv⟩)), rfl, rfl, rfl, rfl⟩
  · exact stepsTo_of_dispatchWord hs hpending (dispatchWord_of_error hp hclr hdrst)

/-- Settles O36: DRST acts in these states, and is ignored in ERROR without a table. -/
theorem drstReturnsToReady : Obligations.DrstReturnsToReady := by
  refine fun s => ⟨fun h => ?_, fun hp htv => exec_of_error rfl hp htv⟩
  have ha : acts .drst s := by
    rcases h with hp | hp | hp
    · exact .inl (by simp [hp, actsIn])
    · exact .inl (by simp [hp, actsIn])
    · exact .inr hp
  exact exec_of_acts rfl ha

/-- STATUS is 0 after CLR, once no command is in flight (R243). -/
theorem statusWord_leaveToFill (s : State) :
    { leaveToFill s with pending := none, tail := false }.statusWord = 0#32 := by
  simp [State.statusWord, State.busy, State.inFlight, State.outNe, Phase.bits, ErrCode.bits]

/-- Settles O13: CLR's word is its encoding, and CLR is `leaveToFill` in every phase. -/
theorem clrReturnsToFill : Obligations.ClrReturnsToFill := by
  refine ⟨fun w => ?_, fun s => ⟨_, exec_clr s, fun x => ?_, rfl, statusWord_leaveToFill s⟩⟩
  · rw [decodeEncodeAgree]
    exact ⟨fun ⟨_, hw⟩ => hw.symm, fun hw => ⟨rfl, hw.symm⟩⟩
  · simp

/-! ### PUT, BUILD and PACK (R263, R267 to R269) -/

/-- Settles O15: in FILL the command is PUT's rule, whose checks come in this order. -/
theorem putOverflowErrors : Obligations.PutOverflowErrors := by
  intro s x hp
  rw [exec_of_fill rfl hp rfl, ruleOf, putRule]
  refine ⟨fun hcap => ?_, fun hcap hmax => ?_⟩
  · rw [if_pos hcap]
    rfl
  · rw [if_neg hcap, if_pos hmax]
    rfl

/-- Settles O19: each rule's first check raises. -/
theorem emptyInputRaised : Obligations.EmptyInputRaised := by
  refine fun s => ⟨fun hp hzero => ?_, fun hp hnil => ?_⟩
  · rw [exec_of_fill rfl hp rfl, ruleOf, buildRule, if_pos (countedSymbols_eq_nil.2 hzero)]
    rfl
  · rw [exec_pack hp, packRule, if_pos hnil]
    rfl

/-- The check of PACK finds the first buffered symbol that has no code (R195). -/
theorem find?_uncoded {s : State} {before after : List Byte} {x : Byte}
    (hsym : s.sym = before ++ x :: after) (hbefore : ∀ y ∈ before, tableGet s.code y ≠ [])
    (hx : tableGet s.code x = []) : (s.sym.find? fun y => s.codeLen y == 0) = some x := by
  rw [List.find?_eq_some_iff_append]
  exact ⟨by simp [State.codeLen, hx], before, after, hsym,
    fun y hy => by simpa [State.codeLen] using hbefore y hy⟩

/-- Settles O31: the buffer is not empty, and PACK's second check finds `x`. -/
theorem packNoCode : Obligations.PackNoCode := by
  intro s before after x hp hsym hbefore hx
  have hne : s.sym ≠ [] := by simp [hsym]
  rw [exec_pack hp, packRule, if_neg hne, find?_uncoded hsym hbefore hx]
  rfl

/-! ### The interrupt line (R280) -/

/-- Settles O50: each cause is its enable bit with PHASE = ERROR or with BUSY = 0 (R78). -/
theorem irqCauses : Obligations.IrqCauses := by
  intro s
  have hidle : s.busy = false ↔
      s.pending = none ∧ s.tail = false ∧ s.out.length ≤ s.cfg.outDepth := by
    rw [← Bool.not_eq_true, busy_iff]
    simp
  simp [State.irq, State.ieErr, State.ieIdle, hidle]

end Sys2Proof.Machine
end

section
/-! SUPPORT. Reset and the host's waiting loop: the two edges of reset (R300), the registers after
it (R301), the parameters (R304), and that WAIT ends (R306, R316). -/

namespace Sys2Proof.Machine

open Sys2Proof.Spec

/-! ### The reset input (R300) -/

theorem step_of_resetHeld {s : State} (hreset : s.resetLine = true) : step s = resetTurn s := by
  simp [step, hreset]

theorem step_assertReset {s : State} {rest : List HostOp} (hreset : s.resetLine = false)
    (hblock : blockMovesNext s = false) (hhost : s.host = .assertReset :: rest) :
    step s = .next (assertReset (hostTaken rest s)) := by
  have hwaits : hostWaits s = false := by simp [hostWaits, hhost]
  rw [step_of_hostMovesNext hreset hblock]
  simp [hostTurn, hhost, hwaits, hostMove, hostTaken]

/-- Settles O52: the assertion is the host's turn, and while reset is held every action at the head
of the list has its own answer. -/
theorem resetFromAnyState : Obligations.ResetFromAnyState := by
  refine fun s rest => ⟨fun hreset hblock hhost =>
    ⟨_, step_assertReset hreset hblock hhost, rfl, rfl, rfl⟩, fun hreset => ?_⟩
  rw [step_of_resetHeld hreset]
  refine ⟨fun hhost => ?_, fun hhost => ?_, fun op hassert hrelease hhost => ?_, fun hhost => ?_⟩
  · simp only [resetTurn, hhost]
  · simp only [resetTurn, hhost]
  · cases op with
    | assertReset => exact absurd rfl hassert
    | releaseReset => exact absurd rfl hrelease
    | write | read | wait | drain => simp only [resetTurn, hhost]
  · simp only [resetTurn, hhost]
    rfl

/-! ### The registers after reset (R301) -/

theorem busy_resetWith (p : Params) : (State.resetWith p).busy = false := by
  simp [State.busy, State.inFlight, State.resetWith]

theorem statusWord_resetWith (p : Params) : (State.resetWith p).statusWord = 0#32 := by
  rw [State.statusWord, busy_resetWith]
  simp [State.resetWith, State.outNe, Phase.bits, ErrCode.bits]

/-- Settles O53: BUSY = 0 after reset, so every read is exact. -/
theorem registersAfterReset : Obligations.RegistersAfterReset := by
  rintro p s rfl
  have hbusy := busy_resetWith p
  refine ⟨hbusy, ?_, ?_, rfl, rfl, fun r hstatus hid hcap => ?_⟩
  · simp [State.irq, State.ieErr, State.ieIdle, State.resetWith]
  · rw [readReg, readStatus_idle hbusy, statusWord_resetWith]
  · cases r with
    | status => exact absurd rfl hstatus
    | id => exact absurd rfl hid
    | cap => exact absurd rfl hcap
    | result | errinfo | symlen => rw [readReg, readQuiet_idle _ hbusy]; rfl
    | cmd | arg | ctrl | outData | reserved => rfl

/-! ### The parameters (R304) -/

/-- The dispatch of a word writes nothing of the host's side. -/
theorem dispatchWord_hostSide {w : Word} {s t : State} (h : dispatchWord w s = .next t) :
    t.hostSide = s.hostSide :=
  dispatchWord_induction (P := fun t => t.hostSide = s.hostSide) h rfl (fun _ _ _ => rfl)
    fun i _ _ => ruleOf_hostSide i s

/-- The parameters, the reset input and the host's list are of the host's side. -/
theorem host_eq_of_hostSide {s t : State} (h : t.hostSide = s.hostSide) :
    t.cfg = s.cfg ∧ t.resetLine = s.resetLine ∧ t.host = s.host := by
  simp only [State.hostSide, Prod.mk.injEq] at h
  obtain ⟨-, -, hcfg, -, -, hreset, hhost, -, -, -⟩ := h
  exact ⟨hcfg, hreset, hhost⟩

/-- Settles O57: a command writes nothing of the host's side, and reset keeps the parameters. -/
theorem parametersFixed : Obligations.ParametersFixed := by
  intro s t h
  rcases step_next h with ⟨_, rfl | ⟨rest, rfl⟩ | ⟨rest, rfl⟩⟩ |
    ⟨_, _, ⟨p, u, _, hu, rfl⟩ | ⟨_, rfl⟩⟩ | ⟨_, _, ⟨_, rfl⟩ | hc⟩
  · rfl
  · rfl
  · rfl
  · exact (host_eq_of_hostSide (dispatchWord_hostSide hu)).1
  · rfl
  · rfl
  · cases hc <;> rfl

/-! ### The steps of a waiting host -/

/-- A STATUS read, exact or a draw, shows BUSY in bit 31 and changes only the model's count of draws
(R80). -/
theorem readStatus_eq (s : State) :
    ∃ v n, readStatus s = (v, { s with draws := n }) ∧ v.getLsbD 31 = s.busy := by
  cases hb : s.busy with
  | false =>
    obtain ⟨-, -, -, -, -, -, -, -, hbit⟩ := statusWord_fields s
    exact ⟨s.statusWord, s.draws, readStatus_idle hb, hb ▸ getLsbD_of_extractLsb'_one hbit⟩
  | true =>
    exact ⟨_, s.draws + 1, readStatus_busy hb,
      getLsbD_of_extractLsb'_one BitVec.extractLsb'_append_eq_left⟩

/-- `s` after one access of the loop: `host` is still to come, and OUT, the noted reads and the
count of draws are `q`, `l` and `n`. -/
def polled (s : State) (host : List HostOp) (q : List Byte) (l : List HostRead) (n : Nat) : State :=
  { s with host := host, delay := s.delay - 1, out := q, reads := l, draws := n }

/-- WAIT reads STATUS, and while BUSY = 1 it goes on with a read of OUT_DATA (R110). -/
theorem step_wait {s : State} {rest : List HostOp} (hs : hostTurnIn s)
    (hhost : s.host = .wait :: rest) :
    ∃ l n, step s = .next
      (polled s (if s.busy then .read (s.cfg.base + 0x18) 4 :: .wait :: rest else rest)
        s.out l n) := by
  have ⟨_, _, hordered⟩ := hs
  obtain ⟨v, n, hread, hbit⟩ := readStatus_eq (hostTaken rest s)
  have htarget : windowTarget (hostTaken rest s).cfg ((hostTaken rest s).cfg.base + 0x08) 4 =
      .ok .status := windowTarget_in hordered (by decide) (by decide)
  have hbusy : (hostTaken rest s).busy = s.busy := rfl
  refine ⟨s.reads ++ [⟨.status, v⟩], n, ?_⟩
  rw [step_hostMove hs hhost (by simp [hostWaits, hhost])]
  simp only [hostMove, hostRead, htarget, readReg, hread, hbit, hbusy]
  cases s.busy <;> rfl

/-- The read of OUT_DATA: with no command in flight it drops the head of OUT (R81). -/
theorem step_readOutData {s : State} {rest : List HostOp} (hs : hostTurnIn s)
    (hhost : s.host = .read (s.cfg.base + 0x18) 4 :: rest) :
    ∃ q l n, (s.inFlight = false → q = s.out.tail) ∧ step s = .next (polled s rest q l n) := by
  have hstep := step_read hs hhost (by decide) (by decide)
  rw [readReg_frame] at hstep
  refine ⟨_, _, _, fun hidle => ?_, hstep⟩
  change (readReg .outData (hostTaken rest s)).2.out = s.out.tail
  cases hout : s.out with
  | nil => rw [readOutData_empty (s := hostTaken rest s) hout]; exact hout
  | cons b q => rw [readOutData_idle (s := hostTaken rest s) hout hidle]; rfl

/-! ### The loop of WAIT (R110, R306) -/

/-- The host is in the loop of WAIT, at either of its two reads, with `rest` to come after it. -/
structure Waiting (rest : List HostOp) (s : State) : Prop where
  released : s.resetLine = false
  ordered : s.cfg.windowOrdered = true
  polls : s.host = .wait :: rest ∨ s.host = .read (s.cfg.base + 0x18) 4 :: .wait :: rest

/-- The run from `s` comes, without a stop, to BUSY = 0 with `rest` to come. -/
def WaitEnds (rest : List HostOp) (s : State) : Prop :=
  ∃ n t, Host.Core.run core n s = .next t ∧ t.host = rest ∧ t.busy = false

theorem waitEnds_refl {rest : List HostOp} {s : State} (hhost : s.host = rest)
    (hbusy : s.busy = false) : WaitEnds rest s := ⟨0, s, rfl, hhost, hbusy⟩

theorem run_succ_of_step {M : Host.Core} {n : Nat} {s u : M.State} (h : M.step s = .next u) :
    M.run (n + 1) s = M.run n u := by
  rw [Host.Core.run, h]

theorem waitEnds_of_step {rest : List HostOp} {s u : State} (h : step s = .next u)
    (hu : WaitEnds rest u) : WaitEnds rest s := by
  obtain ⟨n, t, hrun, ht⟩ := hu
  exact ⟨n + 1, t, (run_succ_of_step (M := core) h).trans hrun, ht⟩

/-- With BUSY = 0 the STATUS read ends the loop. -/
theorem waitEnds_of_notBusy {rest : List HostOp} {s : State} (hreset : s.resetLine = false)
    (hordered : s.cfg.windowOrdered = true) (hbusy : s.busy = false)
    (hhost : s.host = .wait :: rest) : WaitEnds rest s := by
  obtain ⟨hidle, -⟩ := Bool.or_eq_false_iff.1 hbusy
  obtain ⟨l, n, hstep⟩ := step_wait ⟨hreset, blockMovesNext_of_idle hidle, hordered⟩ hhost
  exact waitEnds_of_step hstep (waitEnds_refl (by simp [polled, hbusy]) hbusy)

/-- With no command in flight every round of the loop drops the head of OUT, until BUSY = 0. -/
theorem waitEnds_of_atWait {rest : List HostOp} {s : State} (hreset : s.resetLine = false)
    (hordered : s.cfg.windowOrdered = true) (hidle : s.inFlight = false)
    (hhost : s.host = .wait :: rest) : WaitEnds rest s := by
  induction hout : s.out generalizing s with
  | nil => exact waitEnds_of_notBusy hreset hordered (by simp [State.busy, hidle, hout]) hhost
  | cons b q ih =>
    cases hbusy : s.busy with
    | false => exact waitEnds_of_notBusy hreset hordered hbusy hhost
    | true =>
      obtain ⟨l, n, hwait⟩ := step_wait ⟨hreset, blockMovesNext_of_idle hidle, hordered⟩ hhost
      rw [hbusy] at hwait
      obtain ⟨q', l', n', hq, hread⟩ :=
        step_readOutData (s := polled s (.read (s.cfg.base + 0x18) 4 :: .wait :: rest) s.out l n)
          ⟨hreset, blockMovesNext_of_idle hidle, hordered⟩ rfl
      have hq' : q' = q := by simpa [polled, hout] using hq hidle
      exact waitEnds_of_step hwait
        (waitEnds_of_step hread (ih hreset hordered hidle rfl hq'))

/-- The same from the other read of the loop. -/
theorem waitEnds_of_notInFlight {rest : List HostOp} {s : State} (hs : Waiting rest s)
    (hidle : s.inFlight = false) : WaitEnds rest s := by
  obtain ⟨hreset, hordered, hhost | hhost⟩ := hs
  · exact waitEnds_of_atWait hreset hordered hidle hhost
  · obtain ⟨q, l, n, -, hstep⟩ :=
      step_readOutData ⟨hreset, blockMovesNext_of_idle hidle, hordered⟩ hhost
    exact waitEnds_of_step hstep (waitEnds_of_atWait hreset hordered hidle rfl)

/-- While a command is in flight, each turn of the host goes on in the loop, one access nearer to
the block's step (R79). -/
theorem step_waiting {rest : List HostOp} {s : State} (hs : Waiting rest s)
    (hflight : s.inFlight = true) (hblock : blockMovesNext s = false) :
    ∃ u, step s = .next u ∧ Waiting rest u ∧ u.pending = s.pending ∧ u.tail = s.tail ∧
      u.delay = s.delay - 1 := by
  obtain ⟨hreset, hordered, hhost | hhost⟩ := hs
  · obtain ⟨l, n, hstep⟩ := step_wait ⟨hreset, hblock, hordered⟩ hhost
    have hbusy : s.busy = true := by simp [State.busy, hflight]
    exact ⟨_, hstep, ⟨hreset, hordered, .inr (by simp [polled, hbusy])⟩, rfl, rfl, rfl⟩
  · obtain ⟨q, l, n, -, hstep⟩ := step_readOutData ⟨hreset, hblock, hordered⟩ hhost
    exact ⟨_, hstep, ⟨hreset, hordered, .inl rfl⟩, rfl, rfl, rfl⟩

/-- The drawn delay runs out: the loop ends from `s` once it ends from every state of the loop with
the same command in flight in which the block moves next (R316). -/
theorem waitEnds_of_blockMoves {rest : List HostOp} {s : State} (hs : Waiting rest s)
    (hflight : s.inFlight = true)
    (hends : ∀ u, Waiting rest u → u.pending = s.pending → u.tail = s.tail →
      blockMovesNext u = true → WaitEnds rest u) : WaitEnds rest s := by
  induction hd : s.delay generalizing s with
  | zero => exact hends s hs rfl rfl (by simp [blockMovesNext, hflight, hd])
  | succ d ih =>
    cases hblock : blockMovesNext s with
    | true => exact hends s hs rfl rfl hblock
    | false =>
      obtain ⟨u, hstep, hu, hpending, htail, hdelay⟩ := step_waiting hs hflight hblock
      refine waitEnds_of_step hstep (ih hu ?_ ?_ (by omega))
      · rwa [State.inFlight, hpending, htail]
      · rwa [hpending, htail]

/-- The settle step leaves no command in flight (R79). -/
theorem waitEnds_of_settling {rest : List HostOp} {s : State} (hs : Waiting rest s)
    (hpending : s.pending = none) (htail : s.tail = true) : WaitEnds rest s := by
  refine waitEnds_of_blockMoves hs (inFlight_iff.2 (.inr htail)) fun u hu hp _ hblock => ?_
  rw [hpending] at hp
  obtain ⟨hreset, hordered, hpolls⟩ := hu
  have hstep : step u = .next (settle u) := by
    rw [step_of_blockTurnIn ⟨hreset, hblock⟩, blockTurn, hp]
  exact waitEnds_of_step hstep
    (waitEnds_of_notInFlight ⟨hreset, hordered, hpolls⟩ (inFlight_eq_false hp rfl))

/-- The dispatch of a word always answers a next state (R240). -/
theorem exists_dispatchWord (w : Word) (s : State) : ∃ t, dispatchWord w s = .next t := by
  cases h : decode w with
  | ok i =>
    obtain ⟨t, ht, -⟩ := everyCommandAnswersNext i s
    exact ⟨t, (dispatchWord_of_decode h s).trans ht⟩
  | error e => exact ⟨_, dispatchWord_of_illegal (by simp [h]) s⟩

/-- The perform step leaves the settle step to come (R79). -/
theorem waitEnds_of_pending {rest : List HostOp} {s : State} {p : Pending} (hs : Waiting rest s)
    (hpending : s.pending = some p) : WaitEnds rest s := by
  refine waitEnds_of_blockMoves hs (inFlight_iff.2 (.inl (by simp [hpending])))
    fun u hu hp _ hblock => ?_
  rw [hpending] at hp
  obtain ⟨hreset, hordered, hpolls⟩ := hu
  obtain ⟨t, ht⟩ := exists_dispatchWord p.word u
  obtain ⟨hcfg, hline, hhost⟩ := host_eq_of_hostSide (dispatchWord_hostSide ht)
  refine waitEnds_of_step (step_of_dispatchWord ⟨hreset, hblock⟩ hp ht)
    (waitEnds_of_settling ⟨hline.trans hreset, ?_, ?_⟩ rfl rfl)
  · exact (congrArg Params.windowOrdered hcfg).trans hordered
  · change t.host = _ ∨ t.host = .read (t.cfg.base + 0x18) 4 :: _
    rwa [hhost, hcfg]

/-- Settles O58: a pending command is performed, its end settles, and then OUT is read until
BUSY = 0. -/
theorem waitTerminates : Obligations.WaitTerminates := by
  intro s rest hreset hordered hhost
  have hs : Waiting rest s := ⟨hreset, hordered, .inl hhost⟩
  cases hpending : s.pending with
  | some p => exact waitEnds_of_pending hs hpending
  | none =>
    cases htail : s.tail with
    | true => exact waitEnds_of_settling hs hpending htail
    | false => exact waitEnds_of_notInFlight hs (inFlight_eq_false hpending htail)

end Sys2Proof.Machine
end
